-- ==== Sys2Proof/Config.lean ====
section
/-! DEFINITION. What is fixed when an instance of the block is made: the FloatFormat (00_scope.md R5, R6), the widths
that follow from it (R7), the instances of the operation map (30_encoding.md R58) and the set of supported formats
(60_exceptions.md R146). -/

namespace Sys2Proof

/-- FloatFormat: `m` is mantissa_bits, `e` is exponent_bits (00_scope.md R5). -/
structure FloatFormat where
  m : Nat
  e : Nat
deriving DecidableEq, Repr

/-- Operand and result width `w` (00_scope.md R7). -/
abbrev FloatFormat.width (f : FloatFormat) : Nat := 1 + f.e + f.m

/-- Significand width SIGW (00_scope.md R7). -/
abbrev FloatFormat.sigWidth (f : FloatFormat) : Nat := f.m + 1

/-- WideProduct width W (00_scope.md R7). -/
abbrev FloatFormat.prodWidth (f : FloatFormat) : Nat := 2 * (f.m + 1)

/-- (10, 5) (00_scope.md R6). -/
abbrev FloatFormat.half : FloatFormat := ⟨10, 5⟩

/-- (23, 8) (00_scope.md R6). -/
abbrev FloatFormat.single : FloatFormat := ⟨23, 8⟩

/-- (52, 11) (00_scope.md R6). -/
abbrev FloatFormat.double : FloatFormat := ⟨52, 11⟩

/-- `valid_format(m, e)` of 60_exceptions.md R146: the pairs for which the rules are defined. -/
def FloatFormat.valid (f : FloatFormat) : Bool := decide (1 ≤ f.m) && decide (2 ≤ f.e)

/-- SUPPORTED(impl) of 60_exceptions.md R146 and 93_implementation_defined.md I4. DESIGN CHOICE (log entry 6, unsafe
for formats other than the three named): all valid pairs, which R146 allows a model to take. -/
def Config.supported (f : FloatFormat) : Bool := f.valid

/-- The instances of the block: one per row of the operation map (30_encoding.md R58). A generic instance carries the
pair it was made for. -/
inductive BlockInstance where
  | half
  | single
  | double
  | generic (fmt : FloatFormat)
deriving DecidableEq, Repr

/-- The format of an instance (30_encoding.md R58). -/
abbrev BlockInstance.fmt : BlockInstance → FloatFormat
  | .half => FloatFormat.half
  | .single => FloatFormat.single
  | .double => FloatFormat.double
  | .generic fmt => fmt

/-- The width of the signals `a`, `b`, `z` of an instance (10_state.md R23). -/
abbrev BlockInstance.width (i : BlockInstance) : Nat := i.fmt.width

/-- An instance exists only for a supported format (60_exceptions.md R146). -/
def BlockInstance.supported (i : BlockInstance) : Bool := Config.supported i.fmt

end Sys2Proof
end

