-- ==== Sys2Proof/Syntax.lean ====
section
/-! DEFINITION. The operations: one constructor per row of spec/opcode_table.json (30_encoding.md R58), each with its two
operands split into the fields the table names (s, e, m). -/

namespace Sys2Proof

/-- ExtractedFields (10_state.md R25): the table's fields s, e and m of one operand word. -/
structure ExtractedFields (f : FloatFormat) where
  sign : BitVec 1
  exponentField : BitVec f.e
  mantissaField : BitVec f.m
deriving DecidableEq, Repr

/-- The operations of the block. `a` is the first operand and `b` the second; their order matters (10_state.md R23). The
result is not an operand: it leaves on the signal `z`. -/
inductive Instr where
  /-- FPMUL.H, half precision (43_result_assembler.md R131). -/
  | fpmulH (a b : ExtractedFields FloatFormat.half)
  /-- FPMUL.S, single precision (43_result_assembler.md R132). -/
  | fpmulS (a b : ExtractedFields FloatFormat.single)
  /-- FPMUL.D, double precision (43_result_assembler.md R133). -/
  | fpmulD (a b : ExtractedFields FloatFormat.double)
  /-- FPMUL.G(m,e), the instance made for the pair `fmt` (43_result_assembler.md R134). -/
  | fpmulG (fmt : FloatFormat) (a b : ExtractedFields fmt)
deriving DecidableEq, Repr

/-- The instance an operation is evaluated on (30_encoding.md R58). -/
abbrev Instr.inst : Instr → BlockInstance
  | .fpmulH _ _ => .half
  | .fpmulS _ _ => .single
  | .fpmulD _ _ => .double
  | .fpmulG fmt _ _ => .generic fmt

end Sys2Proof
end

