-- ==== Sys2Proof/WellFormed.lean ====
section
/-! DEFINITION. Which operations are well formed. Operand fields have their widths by type
(93_implementation_defined.md I6), so the one thing left to check is that the instance exists (60_exceptions.md R146). -/

namespace Sys2Proof

/-- An operation is well formed when an instance for its format can be made: at least one mantissa bit, at least two
exponent bits, and the pair supported (60_exceptions.md R146). The three named formats always are. -/
def Instr.wellFormed (i : Instr) : Bool := i.inst.supported

end Sys2Proof
end

