-- ==== Sys2Proof/Word.lean ====
section
/-! DEFINITION. The word a host presents on one signal of the block: a bit vector together with its own width.
Every other word of the model is a `BitVec` of the width the format gives (10_state.md R25); bit 0 is the least
significant bit (00_scope.md R10). The block has no byte order (20_memory.md R41, log entry 15). -/

namespace Sys2Proof

/-- One operand word as the external collaborator presents it: `width` bits, numbered from 0 at the least significant
end. The decoder checks that the width is the instance's own (20_memory.md R43; 93_implementation_defined.md I6). -/
structure PortWord where
  width : Nat
  bits : BitVec width
deriving DecidableEq, Repr

end Sys2Proof
end

