-- ==== Sys2Proof/Decode.lean ====
section
/-! DEFINITION. The encodings (30_encoding.md): the layout of an operand word (R50, R51), read by `extract` (R70) and
written by `assemble` (R71), and the operation map (R58): which operation an instance performs on the words presented to
it. No bit of any word selects the operation, so the decoder is given the instance. After the decoder, the encoder, and
last the host's numbering of a table row's bits. -/

namespace Sys2Proof

/-- FieldCodec, reading (40_fieldcodec_classifier.md R70): `sign = v[w-1]`, `exponent_field = v[w-2 : m]`,
`mantissa_field = v[m-1 : 0]`, where `w - 1 = e + m`. -/
def extract (f : FloatFormat) (v : BitVec f.width) : ExtractedFields f where
  sign := v.extractLsb' (f.e + f.m) 1
  exponentField := v.extractLsb' f.m f.e
  mantissaField := v.extractLsb' 0 f.m

/-- FieldCodec, writing (40_fieldcodec_classifier.md R71): the sign is the most significant bit. -/
def assemble (f : FloatFormat) (x : ExtractedFields f) : BitVec f.width :=
  x.sign ++ x.exponentField ++ x.mantissaField

/-- Why the decoder rejects what is presented to it. -/
inductive DecodeError where
  /-- The instance is for an unsupported pair (m, e): no such instance exists (60_exceptions.md R146). -/
  | invalidFormat (m e : Nat)
  /-- Other than two operand words were presented (20_memory.md R43). -/
  | operandCount (count : Nat)
  /-- An operand word has not the instance's width (20_memory.md R43; 93_implementation_defined.md I6). -/
  | operandWidth (expected first second : Nat)
deriving DecidableEq, Repr

/-- The operation map (30_encoding.md R58): the operation an instance performs on two operand words. -/
def instrOf : (i : BlockInstance) → BitVec i.width → BitVec i.width → Instr
  | .half, a, b => .fpmulH (extract FloatFormat.half a) (extract FloatFormat.half b)
  | .single, a, b => .fpmulS (extract FloatFormat.single a) (extract FloatFormat.single b)
  | .double, a, b => .fpmulD (extract FloatFormat.double a) (extract FloatFormat.double b)
  | .generic fmt, a, b => .fpmulG fmt (extract fmt a) (extract fmt b)

/-- The decoder: total on any instance and any list of words. A supported instance given exactly two words of its own
width performs an operation, whatever the bits are (30_encoding.md R57: no pattern is reserved); anything else is
rejected by name. -/
def decode (i : BlockInstance) (words : List PortWord) : Except DecodeError Instr :=
  if i.supported then
    match words with
    | [x, y] =>
      if h : x.width = i.width ∧ y.width = i.width then
        .ok (instrOf i (x.bits.cast h.1) (y.bits.cast h.2))
      else .error (.operandWidth i.width x.width y.width)
    | other => .error (.operandCount other.length)
  else .error (.invalidFormat i.fmt.m i.fmt.e)

/-- The two operand words of a format, first operand first. -/
def encodeWords (f : FloatFormat) (a b : ExtractedFields f) : List PortWord :=
  [⟨f.width, assemble f a⟩, ⟨f.width, assemble f b⟩]

/-- The encoder, from the operation map (30_encoding.md R58) and the layout (R50): the instance an operation needs and
the operand words to present to it. -/
def encode : Instr → BlockInstance × List PortWord
  | .fpmulH a b => (.half, encodeWords FloatFormat.half a b)
  | .fpmulS a b => (.single, encodeWords FloatFormat.single a b)
  | .fpmulD a b => (.double, encodeWords FloatFormat.double a b)
  | .fpmulG fmt a b => (.generic fmt, encodeWords fmt a b)

/-- The instance the host's numbering of a table row means by a row of `nbits` bits: the named instance of that width,
else a generic one. A width does not fix (m, e); DESIGN CHOICE (log entry 5): two exponent bits. -/
def instanceOfBits (nbits : Nat) : Option BlockInstance :=
  if nbits = 16 then some .half
  else if nbits = 32 then some .single
  else if nbits = 64 then some .double
  else if 4 ≤ nbits then some (.generic ⟨nbits - 3, 2⟩)
  else none

/-- The words of an operation whose bits are `w`, in the host's numbering: the first operand word is the low bits and the
second follows it. The table gives a row the bits of ONE operand word, so the second word is zero (log entry 5). -/
def tableWords (i : BlockInstance) (w : Nat) : List PortWord :=
  [⟨i.width, BitVec.ofNat i.width w⟩, ⟨i.width, 0⟩]

/-- The operation the decoder reads from a table row's word of `nbits` bits. -/
def decodeTableWord (nbits w : Nat) : Option Instr :=
  match instanceOfBits nbits with
  | some i =>
    match decode i (tableWords i w) with
    | .ok instr => some instr
    | .error _ => none
  | none => none

end Sys2Proof
end

