-- ==== Sys2Proof/Machine/Operands.lean ====
section
/-! DEFINITION. What one operand is taken for: the derived parameters of its format (00_scope.md R7) and the Classifier
(40_fieldcodec_classifier.md R72 to R74). Bits are read from the operand's fields (`extract`, in Sys2Proof/Decode.lean). -/

namespace Sys2Proof.Machine

/-- `bias = 2^(e-1) - 1` (00_scope.md R7). -/
def bias (f : FloatFormat) : Nat := 2 ^ (f.e - 1) - 1

/-- EMIN, "the format's fixed minimum exponent" `1 - bias` (00_scope.md R7). -/
def emin (f : FloatFormat) : Int := 1 - (bias f : Int)

/-- EMAX_FIELD, the value `2^e - 1` of the all-ones exponent field (00_scope.md R7). -/
def emaxField (f : FloatFormat) : Nat := 2 ^ f.e - 1

/-- The all-ones exponent field `ones(e)` (00_scope.md R11). -/
def onesField (f : FloatFormat) : BitVec f.e := BitVec.allOnes f.e

/-- Classification (10_state.md R25). -/
inductive Classification where
  | zero
  | subnormal
  | normal
  | infinity
  | quietNaN
  | signalingNaN
deriving DecidableEq, Repr

/-- `classify` (40_fieldcodec_classifier.md R72). The sign is never consulted. -/
def classify (f : FloatFormat) (x : ExtractedFields f) : Classification :=
  if x.exponentField = 0 then
    if x.mantissaField = 0 then .zero else .subnormal
  else if x.exponentField = onesField f then
    if x.mantissaField = 0 then .infinity
    else if x.mantissaField.getLsbD (f.m - 1) then .quietNaN
    else .signalingNaN
  else .normal

/-- `is_nan` (40_fieldcodec_classifier.md R72). -/
def isNaN (c : Classification) : Bool := c = .quietNaN || c = .signalingNaN

/-- `is_inf` (40_fieldcodec_classifier.md R72). -/
def isInf (c : Classification) : Bool := c = .infinity

/-- `is_zero` (40_fieldcodec_classifier.md R72). -/
def isZero (c : Classification) : Bool := c = .zero

/-- `mantissa_value`, the significand (40_fieldcodec_classifier.md R73): the mantissa field with an implicit leading bit,
0 when the exponent field is 0 and 1 otherwise. -/
def mantissaValue (f : FloatFormat) (x : ExtractedFields f) : BitVec f.sigWidth :=
  BitVec.cons (decide (x.exponentField ≠ 0)) x.mantissaField

/-- `exponent_value` (40_fieldcodec_classifier.md R74): the field is read unsigned. -/
def exponentValue (f : FloatFormat) (x : ExtractedFields f) : Int :=
  if x.exponentField = 0 then 1 - (bias f : Int) else (x.exponentField.toNat : Int) - (bias f : Int)

end Sys2Proof.Machine
end

