-- ==== Sys2Proof/Machine/Multiplier.lean ====
section
/-! DEFINITION. MantissaMultiplier and Normalizer (41_multiplier_normalizer.md R85 to R92). SignedExponent values are
mathematical integers (00_scope.md R8). -/

namespace Sys2Proof.Machine

/-- The significand product, an unsigned widening multiply into WideProduct (41_multiplier_normalizer.md R85). -/
def product (f : FloatFormat) (a b : ExtractedFields f) : BitVec f.prodWidth :=
  (mantissaValue f a).setWidth f.prodWidth * (mantissaValue f b).setWidth f.prodWidth

/-- The result sign (41_multiplier_normalizer.md R86). -/
def productSign (f : FloatFormat) (a b : ExtractedFields f) : BitVec 1 := a.sign ^^^ b.sign

/-- The sum of the unbiased exponent values (41_multiplier_normalizer.md R87; 90_conflicts.md C2). -/
def exponentSum (f : FloatFormat) (a b : ExtractedFields f) : Int := exponentValue f a + exponentValue f b

/-- The leading zeros of `v`, looking only below bit `i`: the walk of `clz` from the top bit down. -/
def clzBelow {n : Nat} (v : BitVec n) : Nat → Nat
  | 0 => n
  | i + 1 => if v.getLsbD i then n - 1 - i else clzBelow v i

/-- `clz_N(v)`, the least `k` with `v[N-1-k] = 1` (41_multiplier_normalizer.md R90); `clz_N(0) = N` (log entry 12). -/
def clz {n : Nat} (v : BitVec n) : Nat := clzBelow v n

/-- `norm_product = shl_W(product, clz)` (41_multiplier_normalizer.md R91). -/
def normProduct {n : Nat} (p : BitVec n) : BitVec n := p <<< clz p

/-- `norm_exponent = exponent + 1 - clz` (41_multiplier_normalizer.md R92). -/
def normExponent {n : Nat} (exponent : Int) (p : BitVec n) : Int := exponent + 1 - (clz p : Int)

end Sys2Proof.Machine
end

