-- ==== Sys2Proof/Machine/Rounder.lean ====
section
/-! DEFINITION. SubnormalAdjuster and Rounder (42_subnormal_rounder.md R100 to R110). -/

namespace Sys2Proof.Machine

/-- `subnormal_shift = EMIN - norm_exponent` (42_subnormal_rounder.md R100). -/
def subnormalShift (f : FloatFormat) (normExp : Int) : Int := emin f - normExp

/-- The bits of `v` a right shift by `k` keeps; a shift by the width or more keeps none (42_subnormal_rounder.md R101,
log entry 8). -/
def keptBits {n : Nat} (v : BitVec n) (k : Nat) : BitVec n := if n ≤ k then 0 else v >>> k

/-- Whether a right shift of `v` by `k` shifts a set bit out (42_subnormal_rounder.md R101). -/
def mergedSticky {n : Nat} (v : BitVec n) (k : Nat) : Bool :=
  if n ≤ k then decide (v ≠ 0) else decide (v.extractLsb' 0 k ≠ 0)

/-- `adjust` (42_subnormal_rounder.md R101): right shift, with the OR of the lost bits forced into bit 0. -/
def adjust {n : Nat} (v : BitVec n) (k : Nat) : BitVec n :=
  keptBits v k ||| BitVec.ofNat n (mergedSticky v k).toNat

/-- What enters the Rounder (42_subnormal_rounder.md R103): the value `P` and the exponent field going in, an integer not
yet confined to e bits. -/
structure RounderInput (f : FloatFormat) where
  p : BitVec f.prodWidth
  eIn : Int
deriving DecidableEq, Repr

/-- Subnormal path when `subnormal_shift > 0`, else normal path (42_subnormal_rounder.md R103, log entry 10). -/
def rounderInput (f : FloatFormat) (normProd : BitVec f.prodWidth) (normExp : Int) : RounderInput f :=
  if 0 < subnormalShift f normExp then
    { p := adjust normProd (subnormalShift f normExp).toNat, eIn := 0 }
  else { p := normProd, eIn := normExp + (bias f : Int) }

/-- The window `P[W-1 : m+1]`, the candidate significand (42_subnormal_rounder.md R104, log entry 11). -/
def window (f : FloatFormat) (p : BitVec f.prodWidth) : BitVec f.sigWidth := p.extractLsb' (f.m + 1) (f.m + 1)

/-- The round bit `P[m]` (42_subnormal_rounder.md R104). -/
def roundBit (f : FloatFormat) (p : BitVec f.prodWidth) : Bool := p.getLsbD f.m

/-- The sticky bits `P[m-1 : 0]` (42_subnormal_rounder.md R104). -/
def stickyBits (f : FloatFormat) (p : BitVec f.prodWidth) : BitVec f.m := p.extractLsb' 0 f.m

/-- The rounder sticky, the OR of the sticky bits (42_subnormal_rounder.md R105). -/
def sticky (f : FloatFormat) (p : BitVec f.prodWidth) : Bool := decide (stickyBits f p ≠ 0)

/-- The rounding decision, round to nearest, ties to even (42_subnormal_rounder.md R106). -/
def doRoundUp (roundBit sticky windowLsb : Bool) : Bool :=
  let halfWay := roundBit && !sticky
  let isEven := !windowLsb
  if halfWay then !isEven else roundBit && sticky

/-- The increment, in m+2 bits so that the carry is kept (42_subnormal_rounder.md R107). -/
def roundedSum (f : FloatFormat) (win : BitVec f.sigWidth) (up : Bool) : BitVec (f.m + 2) :=
  win.setWidth (f.m + 2) + BitVec.ofNat (f.m + 2) up.toNat

/-- The significand and the exponent field after rounding (42_subnormal_rounder.md R108). -/
structure Rounded (f : FloatFormat) where
  rounded : BitVec f.sigWidth
  e : Int
deriving DecidableEq, Repr

/-- Carry out of the window: shift right by one and increment the exponent field (42_subnormal_rounder.md R108). -/
def carryOut (f : FloatFormat) (sum : BitVec (f.m + 2)) (eIn : Int) : Rounded f :=
  if sum.getLsbD (f.m + 1) then { rounded := sum.extractLsb' 1 (f.m + 1), e := eIn + 1 }
  else { rounded := sum.extractLsb' 0 (f.m + 1), e := eIn }

/-- The window of `P` incremented by the rounding decision (42_subnormal_rounder.md R104 to R107). -/
def roundingSum (f : FloatFormat) (r : RounderInput f) : BitVec (f.m + 2) :=
  let win := window f r.p
  roundedSum f win (doRoundUp (roundBit f r.p) (sticky f r.p) (win.getLsbD 0))

/-- The Rounder up to the carry (42_subnormal_rounder.md R104 to R108). -/
def roundSignificand (f : FloatFormat) (r : RounderInput f) : Rounded f := carryOut f (roundingSum f r) r.eIn

/-- Infinity with a sign (43_result_assembler.md R125; 42_subnormal_rounder.md R109). -/
def infinityOf (f : FloatFormat) (sign : BitVec 1) : BitVec f.width :=
  assemble f { sign := sign, exponentField := onesField f, mantissaField := 0 }

/-- Final-step policy and result encoding (42_subnormal_rounder.md R109). Overflow is `E >= 2^e - 1`, not equality
(90_conflicts.md C1, log entry 9). -/
def finalStep (f : FloatFormat) (sign : BitVec 1) (eIn : Int) (r : Rounded f) : BitVec f.width :=
  if (emaxField f : Int) ≤ r.e then infinityOf f sign
  else if eIn = 0 ∧ r.rounded.getLsbD f.m = true then
    assemble f { sign := sign, exponentField := 1, mantissaField := r.rounded.extractLsb' 0 f.m }
  else
    assemble f { sign := sign, exponentField := BitVec.ofInt f.e r.e, mantissaField := r.rounded.extractLsb' 0 f.m }

/-- What enters the Rounder for a pair of operands: the chain of 42_subnormal_rounder.md R110 up to R103. -/
def finiteRounderInput (f : FloatFormat) (a b : ExtractedFields f) : RounderInput f :=
  rounderInput f (normProduct (product f a b)) (normExponent (exponentSum f a b) (product f a b))

/-- The finite path as one function (42_subnormal_rounder.md R110). -/
def finitePath (f : FloatFormat) (a b : ExtractedFields f) : BitVec f.width :=
  let r := finiteRounderInput f a b
  finalStep f (productSign f a b) r.eIn (roundSignificand f r)

end Sys2Proof.Machine
end

