-- ==== Sys2Proof/Machine/ResultAssembler.lean ====
section
/-! DEFINITION. ResultAssembler: the six-branch decision and the operation `multiply` (43_result_assembler.md R120 to
R130). -/

namespace Sys2Proof.Machine

/-- `quiet` (43_result_assembler.md R123): exponent field forced to all ones, mantissa bit m-1 forced to 1. -/
def quiet (f : FloatFormat) (x : ExtractedFields f) : BitVec f.width :=
  assemble f
    { sign := x.sign
      exponentField := onesField f
      mantissaField := x.mantissaField ||| BitVec.twoPow f.m (f.m - 1) }

/-- `CANONICAL_QNAN(fmt)` (30_encoding.md R55): sign 0, exponent field all ones, only the top mantissa bit set. Half is
the source's own literal; the other formats are the spec's decision D6 (log entry 7, unsafe for them). -/
def canonicalQNaN (f : FloatFormat) : BitVec f.width :=
  assemble f { sign := 0, exponentField := onesField f, mantissaField := BitVec.twoPow f.m (f.m - 1) }

/-- Zero with a sign (43_result_assembler.md R126). -/
def zeroOf (f : FloatFormat) (sign : BitVec 1) : BitVec f.width :=
  assemble f { sign := sign, exponentField := 0, mantissaField := 0 }

/-- The decision over unpacked operands, first match wins (43_result_assembler.md R120 to R127). -/
def resolve (f : FloatFormat) (a b : ExtractedFields f) : BitVec f.width :=
  let ca := classify f a
  let cb := classify f b
  let s := a.sign ^^^ b.sign
  if isNaN ca then quiet f a
  else if isNaN cb then quiet f b
  else if (isZero ca && isInf cb) || (isInf ca && isZero cb) then canonicalQNaN f
  else if isInf ca || isInf cb then infinityOf f s
  else if isZero ca || isZero cb then zeroOf f s
  else finitePath f a b

/-- `multiply(fmt, a, b)` (43_result_assembler.md R130). -/
def multiply (f : FloatFormat) (a b : BitVec f.width) : BitVec f.width := resolve f (extract f a) (extract f b)

end Sys2Proof.Machine
end

