-- ==== Sys2Proof/Machine/State.lean ====
section
/-! DEFINITION. The state: the interface signals of the block and nothing else. The block itself holds no state at all
(10_state.md R20 to R29); its signals stand in State because the host's step is a function of the state alone
(log entry 2). -/

namespace Sys2Proof.Machine

/-- Run-time faults: there are NONE, so the type has no constructor. "No exceptions are raised anywhere in this flow;
every branch yields a defined bit pattern" (60_exceptions.md R140). -/
inductive Fault where
deriving DecidableEq, Repr

/-- Why no evaluation takes place. -/
inductive Refusal where
  /-- Raised by exec for an instruction that has no meaning yet. Safe: nothing can be proved of a next state. -/
  | notModelled (mnemonic : String)
  /-- `InvalidFormat` (60_exceptions.md R146): no instance exists for the pair (m, e). Raised by `configure`, by
  `execFpmulG` and by the decoder inside step. Safe: it is what the spec says. -/
  | invalidFormat (m e : Nat)
  /-- Other than two operand words were presented (20_memory.md R43). Raised by step where the decoder says so; a State
  always presents two words, so no state reaches it. Safe. -/
  | operandCount (count : Nat)
  /-- An operand word has not the instance's width (20_memory.md R43, 93_implementation_defined.md I6). Raised by step
  where the decoder says so; the signals of a State have the instance's width, so no state reaches it. Safe. -/
  | operandWidth (expected first second : Nat)
deriving DecidableEq, Repr

/-- The interface of the block (10_state.md R23). -/
structure State where
  /-- The instance being evaluated, with its configuration `fmt`, fixed when it was made (10_state.md R24). -/
  inst : BlockInstance
  /-- The input signal `a`, driven by the external collaborator. -/
  a : BitVec inst.width
  /-- The input signal `b`, driven by the external collaborator. -/
  b : BitVec inst.width
  /-- The output signal `z`. It is a wire and no storage: "at all times `z = multiply(fmt, a, b)`" (10_state.md R23), so
  whatever drives the inputs (`State.reset`, `freshInstance`, `present`, `evaluate`) drives it to their product. -/
  z : BitVec inst.width
deriving DecidableEq, Repr

/-- After power-up. The block has no reset; `z` has no initial value of its own and is the product of whatever the inputs
carry (70_reset_and_hazards.md R155, 10_state.md R29). The instance and the inputs are DESIGN CHOICE (log entry 3, unsafe):
the half instance with both inputs 0x0000. -/
def State.reset : State where
  inst := .half
  a := 0
  b := 0
  z := multiply FloatFormat.half 0 0

end Sys2Proof.Machine
end

