-- ==== Sys2Proof/Machine/Ops.lean ====
section
/-! DEFINITION. The named operations over the signals of the block (10_state.md R23): making an instance
(60_exceptions.md R146), presenting operands, reading what is presented, and one evaluation (10_state.md R22). The block
takes no exception and returns from none (60_exceptions.md R140, R145, R147), so there is no such operation here. -/

namespace Sys2Proof.Machine

/-- The instance made for a format: a named one for the three recognised pairs, else a generic one
(30_encoding.md R58). -/
def instanceFor (f : FloatFormat) : BlockInstance :=
  if f = FloatFormat.half then .half
  else if f = FloatFormat.single then .single
  else if f = FloatFormat.double then .double
  else .generic f

/-- The external collaborator selects an instance and drives its inputs; the output is their product at once, since no
intermediate output is observable (10_state.md R23, R29; 70_reset_and_hazards.md R155, R159). -/
def present (i : BlockInstance) (a b : BitVec i.width) : State where
  inst := i
  a := a
  b := b
  z := multiply i.fmt a b

/-- An instance just made, both inputs carrying +0 (70_reset_and_hazards.md R155; log entry 3). -/
def freshInstance (i : BlockInstance) : State := present i 0 0

/-- `configure(impl, (m, e))` (60_exceptions.md R146), at setup time: an instance, or InvalidFormat. `supportedSet` is
SUPPORTED(impl); the model's own is `Config.supported`. -/
def configure (supportedSet : FloatFormat → Bool) (f : FloatFormat) : Except Refusal State :=
  if f.valid && supportedSet f then .ok (freshInstance (instanceFor f)) else .error (.invalidFormat f.m f.e)

/-- What is presented on the inputs, first operand first: the block's nearest thing to an instruction fetch. -/
def presentedWords (s : State) : List PortWord := [⟨s.inst.width, s.a⟩, ⟨s.inst.width, s.b⟩]

/-- One evaluation on the instance `i` (10_state.md R22, R23): the operands stand on the inputs and
`z = multiply(fmt, a, b)`. Nothing of the state before is read (10_state.md R27). -/
def evaluate (i : BlockInstance) (a b : ExtractedFields i.fmt) : State where
  inst := i
  a := assemble i.fmt a
  b := assemble i.fmt b
  z := resolve i.fmt a b

/-- The refusal a rejection of the decoder is answered with. -/
def refusalOf : DecodeError → Refusal
  | .invalidFormat m e => .invalidFormat m e
  | .operandCount count => .operandCount count
  | .operandWidth expected first second => .operandWidth expected first second

end Sys2Proof.Machine
end

