-- ==== Sys2Proof/Machine/FpMul.lean ====
section
/-! DEFINITION. The meanings of the four operations (43_result_assembler.md R131 to R134). None reads or writes a flag, a
register or memory, and none raises an exception. -/

namespace Sys2Proof.Machine

/-- FPMUL.H (43_result_assembler.md R131): `z = multiply((10, 5), a, b)`. -/
def execFpmulH (a b : ExtractedFields FloatFormat.half) (_s : State) : Host.Outcome State Fault Refusal :=
  .next (evaluate .half a b)

/-- FPMUL.S (43_result_assembler.md R132): `z = multiply((23, 8), a, b)`. -/
def execFpmulS (a b : ExtractedFields FloatFormat.single) (_s : State) : Host.Outcome State Fault Refusal :=
  .next (evaluate .single a b)

/-- FPMUL.D (43_result_assembler.md R133): `z = multiply((52, 11), a, b)`. -/
def execFpmulD (a b : ExtractedFields FloatFormat.double) (_s : State) : Host.Outcome State Fault Refusal :=
  .next (evaluate .double a b)

/-- FPMUL.G(m,e) (43_result_assembler.md R134): `z = multiply((m, e), a, b)` for every supported pair; no instance exists
for any other pair (60_exceptions.md R146). -/
def execFpmulG (fmt : FloatFormat) (a b : ExtractedFields fmt) (_s : State) : Host.Outcome State Fault Refusal :=
  if Config.supported fmt then .next (evaluate (.generic fmt) a b) else .refused (.invalidFormat fmt.m fmt.e)

end Sys2Proof.Machine
end

