-- ==== Sys2Proof/Machine/Dispatch.lean ====
section
/-! DEFINITION. One arm per operation of spec/opcode_table.json. -/

namespace Sys2Proof.Machine

def exec (i : Instr) (s : State) : Host.Outcome State Fault Refusal :=
  match i with
  | .fpmulH a b => Sys2Proof.Machine.execFpmulH a b s
  | .fpmulS a b => Sys2Proof.Machine.execFpmulS a b s
  | .fpmulD a b => Sys2Proof.Machine.execFpmulD a b s
  | .fpmulG fmt a b => Sys2Proof.Machine.execFpmulG fmt a b s

end Sys2Proof.Machine
end

