-- ==== Sys2Proof/Machine/Step.lean ====
section
/-! DEFINITION. One step: one evaluation of what is presented on the inputs (10_state.md R22). -/

namespace Sys2Proof.Machine

/-- "A model's step relation has exactly one kind of step, evaluate" (10_state.md R22): the words on the inputs of the
instance are decoded and the operation is performed. -/
def step (s : State) : Host.Outcome State Fault Refusal :=
  match decode s.inst (presentedWords s) with
  | .ok i => exec i s
  | .error err => .refused (refusalOf err)

/-- `s` with the operation of a table row's word presented to it: the instance of that width, the word as the first
operand and zero as the second, the output their product (log entries 4 and 5). -/
def State.withFetchWord (s : State) (nbits w : Nat) : State :=
  match instanceOfBits nbits with
  | some i => present i (BitVec.ofNat i.width w) 0
  | none => s

end Sys2Proof.Machine
end

