-- ==== Sys2Proof/Safety.lean ====
section
/-! DEFINITION. The terms claims are made in: a settled interface and the machine's invariant, the real number an operand
denotes (30_encoding.md R52), and what correct rounding means (42_subnormal_rounder.md R113). Nothing here is part of the
machine. -/

namespace Sys2Proof.Machine

/-- "at all times `z = multiply(fmt, a, b)`" (10_state.md R23): the output is the product of what the inputs carry. -/
abbrev State.settled (s : State) : Prop := s.z = multiply s.inst.fmt s.a s.b

/-- The invariant: the instance exists (60_exceptions.md R146) and its output is settled (10_state.md R23). -/
abbrev State.inv (s : State) : Prop := s.inst.supported = true ∧ s.settled

/-- Subnormal or Normal: the operands of the finite path (43_result_assembler.md R127). -/
def isFiniteNonzero (c : Classification) : Bool := c = .subnormal || c = .normal

/-- Zero, Subnormal or Normal: the patterns that denote a real number (30_encoding.md R52). -/
def isFinite (c : Classification) : Bool := c = .zero || isFiniteNonzero c

/-- The magnitude a pattern denotes, `int(mantissa_value) × 2^(exponent_value − m)` (30_encoding.md R52,
40_fieldcodec_classifier.md R76). Meaningful for finite patterns. -/
def magnitude (f : FloatFormat) (x : ExtractedFields f) : ℚ :=
  ((mantissaValue f x).toNat : ℚ) * (2 : ℚ) ^ (exponentValue f x - (f.m : Int))

/-- The real number a finite pattern denotes, with its sign (30_encoding.md R52). -/
def denoted (f : FloatFormat) (x : ExtractedFields f) : ℚ := (-1) ^ x.sign.toNat * magnitude f x

/-- The magnitude of the exact product of two operands. -/
def exactMagnitude (f : FloatFormat) (a b : ExtractedFields f) : ℚ := magnitude f a * magnitude f b

/-- The set `F` of 42_subnormal_rounder.md R113: the magnitudes representable in the format. -/
def Representable (f : FloatFormat) (r : ℚ) : Prop :=
  (∃ n : Nat, n < 2 ^ f.m ∧ r = (n : ℚ) * (2 : ℚ) ^ (emin f - (f.m : Int))) ∨
  (∃ (n : Nat) (q : Int), n < 2 ^ f.m ∧ emin f ≤ q ∧ q ≤ (bias f : Int) ∧
    r = (((2 ^ f.m + n : Nat)) : ℚ) * (2 : ℚ) ^ (q - (f.m : Int)))

/-- `2^(bias+1)`, the value that stands for Infinity in 42_subnormal_rounder.md R113. -/
def infinityMagnitude (f : FloatFormat) : ℚ := (2 : ℚ) ^ ((bias f : Int) + 1)

/-- `F` extended by the value standing for Infinity (42_subnormal_rounder.md R113). -/
def RoundingTarget (f : FloatFormat) (r : ℚ) : Prop := Representable f r ∨ r = infinityMagnitude f

/-- The element of the extended set a pattern stands for. -/
def targetOf (f : FloatFormat) (z : ExtractedFields f) : ℚ :=
  if classify f z = .infinity then infinityMagnitude f else magnitude f z

/-- The pattern `z` is the rounding to nearest, ties to the even mantissa field, of the magnitude `p`
(42_subnormal_rounder.md R113; PRESUMED, log entry 21: the spec supplies it from general knowledge). -/
def CorrectlyRounded (f : FloatFormat) (p : ℚ) (z : ExtractedFields f) : Prop :=
  isNaN (classify f z) = false ∧ RoundingTarget f (targetOf f z) ∧
  ∀ r, RoundingTarget f r →
    |targetOf f z - p| ≤ |r - p| ∧
    (r ≠ targetOf f z → |r - p| = |targetOf f z - p| → z.mantissaField.getLsbD 0 = false)

/-! ### The laws of the finite path (42_subnormal_rounder.md R111), one definition each, on a pair of operands -/

/-- The subnormal shift of a pair of operands (42_subnormal_rounder.md R100). -/
def shiftOf (f : FloatFormat) (a b : ExtractedFields f) : Int :=
  subnormalShift f (normExponent (exponentSum f a b) (product f a b))

/-- The significand and exponent field of a pair after rounding (42_subnormal_rounder.md R108). -/
def roundedOf (f : FloatFormat) (a b : ExtractedFields f) : Rounded f := roundSignificand f (finiteRounderInput f a b)

/-- The carry out of the window for a pair (42_subnormal_rounder.md R108). -/
def carryOf (f : FloatFormat) (a b : ExtractedFields f) : Bool :=
  (roundingSum f (finiteRounderInput f a b)).getLsbD (f.m + 1)

/-- R111 L1: `E_in = 0` if and only if `subnormal_shift > 0`. -/
def LawEInZeroIffSubnormalPath (f : FloatFormat) (a b : ExtractedFields f) : Prop :=
  (finiteRounderInput f a b).eIn = 0 ↔ 0 < shiftOf f a b

/-- R111 L2: on the subnormal path `window[m] = 0`, no carry occurs and `E = 0`. -/
def LawSubnormalPathShape (f : FloatFormat) (a b : ExtractedFields f) : Prop :=
  0 < shiftOf f a b →
    (window f (finiteRounderInput f a b).p).getLsbD f.m = false ∧ carryOf f a b = false ∧ (roundedOf f a b).e = 0

/-- R111 L3: on the normal path `window[m] = 1` and `rounded[m] = 1`. -/
def LawNormalPathShape (f : FloatFormat) (a b : ExtractedFields f) : Prop :=
  shiftOf f a b ≤ 0 →
    (window f (finiteRounderInput f a b).p).getLsbD f.m = true ∧ (roundedOf f a b).rounded.getLsbD f.m = true

/-- R111 L4: a carry gives `rounded = 2^m`, mantissa field 0. -/
def LawCarryGivesTwoPowM (f : FloatFormat) (a b : ExtractedFields f) : Prop :=
  carryOf f a b = true →
    (roundedOf f a b).rounded.toNat = 2 ^ f.m ∧ (extract f (finitePath f a b)).mantissaField = 0

/-- R111 L5: promotion gives exponent field 1, mantissa field 0. -/
def LawPromotionGivesSmallestNormal (f : FloatFormat) (a b : ExtractedFields f) : Prop :=
  (finiteRounderInput f a b).eIn = 0 → (roundedOf f a b).rounded.getLsbD f.m = true →
    extract f (finitePath f a b) = { sign := productSign f a b, exponentField := 1, mantissaField := 0 }

/-- R111 L6: the finite path never returns a NaN; its exponent field is all ones only where the mantissa field is 0. -/
def LawFinitePathNotNaN (f : FloatFormat) (a b : ExtractedFields f) : Prop :=
  isNaN (classify f (extract f (finitePath f a b))) = false ∧
  ((extract f (finitePath f a b)).exponentField = onesField f ↔ 2 ^ f.e - 1 ≤ (roundedOf f a b).e)

/-- R111 L7: the result's sign bit is always the xor of the signs. -/
def LawFinitePathSign (f : FloatFormat) (a b : ExtractedFields f) : Prop :=
  (extract f (finitePath f a b)).sign = a.sign ^^^ b.sign

/-- R111 L8: Zero exactly when `P < 2^m` or `P = 2^m`, that is when the exact magnitude is at most half the smallest
subnormal. -/
def LawZeroIffHalfSmallestSubnormal (f : FloatFormat) (a b : ExtractedFields f) : Prop :=
  (classify f (extract f (finitePath f a b)) = .zero ↔ (finiteRounderInput f a b).p.toNat ≤ 2 ^ f.m) ∧
  (classify f (extract f (finitePath f a b)) = .zero ↔
    exactMagnitude f a b ≤ (2 : ℚ) ^ (emin f - (f.m : Int) - 1))

/-- R111 L9: the result is monotone in the magnitude of the exact product. Infinity stands for `2^(bias+1)` as in R113
(PRESUMED, log entry 21). -/
def LawResultIsMonotone (f : FloatFormat) (a b c d : BitVec f.width) : Prop :=
  exactMagnitude f (extract f a) (extract f b) ≤ exactMagnitude f (extract f c) (extract f d) →
    targetOf f (extract f (multiply f a b)) ≤ targetOf f (extract f (multiply f c d))

/-- The branch that answers each pair of classes, row by row as the table of 43_result_assembler.md R128 has it. -/
def decisionBranch : Classification → Classification → Nat
  | .quietNaN, _ => 1
  | .signalingNaN, _ => 1
  | .zero, .zero => 5
  | .zero, .subnormal => 5
  | .zero, .normal => 5
  | .zero, .infinity => 3
  | .zero, .quietNaN => 2
  | .zero, .signalingNaN => 2
  | .subnormal, .zero => 5
  | .subnormal, .subnormal => 6
  | .subnormal, .normal => 6
  | .subnormal, .infinity => 4
  | .subnormal, .quietNaN => 2
  | .subnormal, .signalingNaN => 2
  | .normal, .zero => 5
  | .normal, .subnormal => 6
  | .normal, .normal => 6
  | .normal, .infinity => 4
  | .normal, .quietNaN => 2
  | .normal, .signalingNaN => 2
  | .infinity, .zero => 3
  | .infinity, .subnormal => 4
  | .infinity, .normal => 4
  | .infinity, .infinity => 4
  | .infinity, .quietNaN => 2
  | .infinity, .signalingNaN => 2

end Sys2Proof.Machine
end

