-- ==== Sys2Proof/Certificates/Slice0/Obligations.lean ====
section
/-! DEFINITION. The statements for the provers. Each docstring names the rule of spec/ it formalises; OBLIGATIONS.json
lists them. None is about a program. -/

open Sys2Proof Sys2Proof.Machine

/-! ## FieldCodec and the decoder -/

/-- 40_fieldcodec_classifier.md R70, in the slice notation of 00_scope.md R11: the three fields are the three slices, and
the slices tile the word. -/
def Obligations.ExtractReadsTheThreeSlices : Prop :=
  ∀ (f : FloatFormat) (v : BitVec f.width),
    (extract f v).sign.toNat = (v.toNat >>> (f.width - 1)) % 2 ∧
    (extract f v).exponentField.toNat = (v.toNat >>> f.m) % 2 ^ f.e ∧
    (extract f v).mantissaField.toNat = v.toNat % 2 ^ f.m ∧
    v.toNat = (extract f v).sign.toNat * 2 ^ (f.e + f.m) + (extract f v).exponentField.toNat * 2 ^ f.m
      + (extract f v).mantissaField.toNat

/-- 40_fieldcodec_classifier.md R71: the assembled word as a number. -/
def Obligations.AssemblePlacesTheThreeFields : Prop :=
  ∀ (f : FloatFormat) (x : ExtractedFields f),
    (assemble f x).toNat =
      x.sign.toNat * 2 ^ (f.e + f.m) + x.exponentField.toNat * 2 ^ f.m + x.mantissaField.toNat

/-- 40_fieldcodec_classifier.md R75: both directions of the round trip. -/
def Obligations.FieldCodecRoundTrip : Prop :=
  (∀ (f : FloatFormat) (v : BitVec f.width), assemble f (extract f v) = v) ∧
  (∀ (f : FloatFormat) (x : ExtractedFields f), extract f (assemble f x) = x)

/-- 30_encoding.md R50, R58: what the encoder writes for a well-formed operation, the decoder reads back, with every
operand at every value. -/
def Obligations.DecodeOfEncodeIsTheOperation : Prop :=
  ∀ i : Instr, i.wellFormed = true → decode (encode i).1 (encode i).2 = .ok i

/-- 30_encoding.md R50, R58, the other direction: no two presentations mean one operation. -/
def Obligations.EncodeOfDecodeIsThePresentation : Prop :=
  ∀ (b : BlockInstance) (words : List PortWord) (i : Instr),
    decode b words = .ok i → encode i = (b, words) ∧ i.wellFormed = true

/-- 20_memory.md R43, 30_encoding.md R57: every pair of operand words is legal on every instance that exists. -/
def Obligations.EveryOperandPairDecodes : Prop :=
  ∀ (i : BlockInstance) (a b : BitVec i.width), i.supported = true →
    ∃ instr : Instr, decode i [⟨i.width, a⟩, ⟨i.width, b⟩] = .ok instr ∧ instr.inst = i

/-- What the decoder rejects, by name: the model's choice, log entries 14 (answering an unsupported format from the decoder)
and 22 (words of the wrong number or width). The spec says only that no such instance exists (60_exceptions.md R146), that
two words of the instance's width are owed (20_memory.md R43), and that other words need no behaviour
(93_implementation_defined.md I6). -/
def Obligations.DecoderRejectsByName : Prop :=
  ∀ (i : BlockInstance) (words : List PortWord),
    (i.supported = false → decode i words = .error (.invalidFormat i.fmt.m i.fmt.e)) ∧
    (i.supported = true → words.length ≠ 2 → decode i words = .error (.operandCount words.length)) ∧
    (∀ x y : PortWord, i.supported = true → words = [x, y] → ¬(x.width = i.width ∧ y.width = i.width) →
      decode i words = .error (.operandWidth i.width x.width y.width))

/-- 30_encoding.md R51, R54: words written out bit by bit, sign, exponent field, mantissa field. -/
def Obligations.SampleWordsDecode : Prop :=
  decode .half [⟨16, 0b1_01111_0000000000#16⟩, ⟨16, 0b0_10000_0000000001#16⟩] =
    .ok (.fpmulH ⟨1#1, 15#5, 0#10⟩ ⟨0#1, 16#5, 1#10⟩) ∧
  decode .single [⟨32, 0b0_01111111_10000000000000000000000#32⟩, ⟨32, 0b1_11111111_00000000000000000000001#32⟩] =
    .ok (.fpmulS ⟨0#1, 127#8, 0x400000#23⟩ ⟨1#1, 255#8, 1#23⟩) ∧
  decode .double [⟨64, 0b0_01111111111_1000000000000000000000000000000000000000000000000000#64⟩,
      ⟨64, 0b1_00000000000_0000000000000000000000000000000000000000000000000001#64⟩] =
    .ok (.fpmulD ⟨0#1, 1023#11, 0x8000000000000#52⟩ ⟨1#1, 0#11, 1#52⟩) ∧
  decode (.generic ⟨2, 3⟩) [⟨6, 0b1_011_00#6⟩, ⟨6, 0b0_110_11#6⟩] =
    .ok (.fpmulG ⟨2, 3⟩ ⟨1#1, 3#3, 0#2⟩ ⟨0#1, 6#3, 3#2⟩)

/-- 00_scope.md R7: the table of derived parameters. -/
def Obligations.DerivedParametersOfTheNamedFormats : Prop :=
  (∀ f : FloatFormat, f.width = 1 + f.e + f.m ∧ bias f = 2 ^ (f.e - 1) - 1 ∧ emaxField f = 2 ^ f.e - 1 ∧
    emin f = 1 - (bias f : Int) ∧ f.sigWidth = f.m + 1 ∧ f.prodWidth = 2 * (f.m + 1)) ∧
  (FloatFormat.half.width = 16 ∧ bias .half = 15 ∧ emaxField .half = 31 ∧ emin .half = -14 ∧
    FloatFormat.half.sigWidth = 11 ∧ FloatFormat.half.prodWidth = 22) ∧
  (FloatFormat.single.width = 32 ∧ bias .single = 127 ∧ emaxField .single = 255 ∧ emin .single = -126 ∧
    FloatFormat.single.sigWidth = 24 ∧ FloatFormat.single.prodWidth = 48) ∧
  (FloatFormat.double.width = 64 ∧ bias .double = 1023 ∧ emaxField .double = 2047 ∧ emin .double = -1022 ∧
    FloatFormat.double.sigWidth = 53 ∧ FloatFormat.double.prodWidth = 106)

/-! ## Classifier -/

/-- 40_fieldcodec_classifier.md R72, in numbers: which exponent and mantissa fields make each class; the sign plays no
part; and the three derived predicates. -/
def Obligations.ClassesByFieldValues : Prop :=
  ∀ (f : FloatFormat) (x : ExtractedFields f), f.valid = true →
    (classify f x = .zero ↔ x.exponentField.toNat = 0 ∧ x.mantissaField.toNat = 0) ∧
    (classify f x = .subnormal ↔ x.exponentField.toNat = 0 ∧ x.mantissaField.toNat ≠ 0) ∧
    (classify f x = .normal ↔ 1 ≤ x.exponentField.toNat ∧ x.exponentField.toNat ≤ 2 ^ f.e - 2) ∧
    (classify f x = .infinity ↔ x.exponentField.toNat = 2 ^ f.e - 1 ∧ x.mantissaField.toNat = 0) ∧
    (classify f x = .quietNaN ↔ x.exponentField.toNat = 2 ^ f.e - 1 ∧ 2 ^ (f.m - 1) ≤ x.mantissaField.toNat) ∧
    (classify f x = .signalingNaN ↔ x.exponentField.toNat = 2 ^ f.e - 1 ∧ x.mantissaField.toNat ≠ 0 ∧
      x.mantissaField.toNat < 2 ^ (f.m - 1)) ∧
    (isNaN (classify f x) = true ↔ classify f x = .quietNaN ∨ classify f x = .signalingNaN) ∧
    (isInf (classify f x) = true ↔ classify f x = .infinity) ∧
    (isZero (classify f x) = true ↔ classify f x = .zero)

/-- 40_fieldcodec_classifier.md R73: the significand, and its range in each finite class. -/
def Obligations.SignificandHasTheImplicitBit : Prop :=
  ∀ (f : FloatFormat) (x : ExtractedFields f),
    (mantissaValue f x).toNat = (if x.exponentField.toNat = 0 then 0 else 2 ^ f.m) + x.mantissaField.toNat ∧
    (classify f x = .zero → (mantissaValue f x).toNat = 0) ∧
    (classify f x = .subnormal → 1 ≤ (mantissaValue f x).toNat ∧ (mantissaValue f x).toNat ≤ 2 ^ f.m - 1) ∧
    (classify f x = .normal → 2 ^ f.m ≤ (mantissaValue f x).toNat ∧ (mantissaValue f x).toNat ≤ 2 ^ (f.m + 1) - 1)

/-- 40_fieldcodec_classifier.md R74: the exponent value, and its range over finite operands. -/
def Obligations.ExponentValueIsUnbiased : Prop :=
  ∀ (f : FloatFormat) (x : ExtractedFields f), f.valid = true →
    exponentValue f x =
      (if x.exponentField.toNat = 0 then 1 - (bias f : Int) else (x.exponentField.toNat : Int) - (bias f : Int)) ∧
    (isFinite (classify f x) = true → 1 - (bias f : Int) ≤ exponentValue f x ∧ exponentValue f x ≤ (bias f : Int))

/-- 40_fieldcodec_classifier.md R76: a significand is zero exactly for the class Zero, and so a pattern denotes zero
exactly for that class among the finite ones. -/
def Obligations.SignificandIsZeroOnlyForZero : Prop :=
  ∀ (f : FloatFormat) (x : ExtractedFields f),
    ((mantissaValue f x).toNat = 0 ↔ classify f x = .zero) ∧ (magnitude f x = 0 ↔ classify f x = .zero)

/-! ## MantissaMultiplier and Normalizer -/

/-- 41_multiplier_normalizer.md R85: the product is exact, it is zero exactly when an operand is Zero, and Normal times
Normal is at least 2^(2m). -/
def Obligations.SignificandProductIsExact : Prop :=
  ∀ (f : FloatFormat) (a b : ExtractedFields f),
    (product f a b).toNat = (mantissaValue f a).toNat * (mantissaValue f b).toNat ∧
    ((product f a b).toNat = 0 ↔ classify f a = .zero ∨ classify f b = .zero) ∧
    (classify f a = .normal → classify f b = .normal → 2 ^ (2 * f.m) ≤ (product f a b).toNat)

/-- 41_multiplier_normalizer.md R86 and R87: the sign is the xor of the signs, the exponent the sum of the unbiased
exponent values. -/
def Obligations.SignAndExponentOfTheProduct : Prop :=
  ∀ (f : FloatFormat) (a b : ExtractedFields f),
    (productSign f a b = 1 ↔ a.sign ≠ b.sign) ∧
    (f.valid = true → isFinite (classify f a) = true → isFinite (classify f b) = true →
      exponentSum f a b = (max 1 a.exponentField.toNat : Int) + (max 1 b.exponentField.toNat : Int) - 2 * (bias f : Int) ∧
      2 * (1 - (bias f : Int)) ≤ exponentSum f a b ∧ exponentSum f a b ≤ 2 * (bias f : Int))

/-- 41_multiplier_normalizer.md R88: product, sign and exponent together are the exact product of the values. -/
def Obligations.ProductDenotesTheExactProduct : Prop :=
  ∀ (f : FloatFormat) (a b : ExtractedFields f),
    denoted f a * denoted f b =
      (-1) ^ (productSign f a b).toNat * ((product f a b).toNat : ℚ) * (2 : ℚ) ^ (exponentSum f a b - 2 * (f.m : Int))

/-- 41_multiplier_normalizer.md R90: the count is the least k with bit N-1-k set. The value at 0 is the spec's decision
D8. -/
def Obligations.LeadingZerosAreCounted : Prop :=
  ∀ (n : Nat) (v : BitVec n), 1 ≤ n →
    (v = 0 → clz v = n) ∧
    (v ≠ 0 → clz v < n ∧ v.getLsbD (n - 1 - clz v) = true ∧ ∀ k, k < clz v → v.getLsbD (n - 1 - k) = false)

/-- 41_multiplier_normalizer.md R91: the shift loses no set bit and brings the leading one to the top. -/
def Obligations.NormalizingShiftLosesNothing : Prop :=
  ∀ (n : Nat) (v : BitVec n), v ≠ 0 →
    clz v ≤ n - 1 ∧ (normProduct v).toNat = v.toNat * 2 ^ clz v ∧ (normProduct v).getLsbD (n - 1) = true

/-- 41_multiplier_normalizer.md R93: after normalisation the value is still the exact product, and the magnitude lies in
[2^norm_exponent, 2^(norm_exponent+1)). -/
def Obligations.NormalizedProductIsExact : Prop :=
  ∀ (f : FloatFormat) (a b : ExtractedFields f), product f a b ≠ 0 →
    let np := (normProduct (product f a b)).toNat
    let ne := normExponent (exponentSum f a b) (product f a b)
    2 ^ (f.prodWidth - 1) ≤ np ∧ np < 2 ^ f.prodWidth ∧
    exactMagnitude f a b = (np : ℚ) * (2 : ℚ) ^ (ne - ((f.prodWidth : Int) - 1)) ∧
    (2 : ℚ) ^ ne ≤ exactMagnitude f a b ∧ exactMagnitude f a b < (2 : ℚ) ^ (ne + 1)

/-- 41_multiplier_normalizer.md R94: the ranges of the SignedExponent values on the finite path. -/
def Obligations.SignedExponentRanges : Prop :=
  ∀ (f : FloatFormat) (a b : ExtractedFields f), f.valid = true →
    isFiniteNonzero (classify f a) = true → isFiniteNonzero (classify f b) = true →
    let ne := normExponent (exponentSum f a b) (product f a b)
    let r := finiteRounderInput f a b
    let B := (bias f : Int)
    (2 - 2 * B ≤ exponentSum f a b ∧ exponentSum f a b ≤ 2 * B) ∧
    clz (product f a b) ≤ 2 * f.m + 1 ∧
    (2 - 2 * B - 2 * (f.m : Int) ≤ ne ∧ ne ≤ 2 * B + 1) ∧
    (-3 * B ≤ subnormalShift f ne ∧ subnormalShift f ne ≤ B + 2 * (f.m : Int) - 1) ∧
    (0 ≤ r.eIn ∧ r.eIn ≤ 3 * B + 1) ∧
    (0 ≤ (roundSignificand f r).e ∧ (roundSignificand f r).e ≤ 3 * B + 2)

/-! ## SubnormalAdjuster and Rounder -/

/-- 42_subnormal_rounder.md R101, in numbers, for every shift amount (a shift by the width or more is the spec's decision
D7): the quotient, with bit 0 forced to 1 when the remainder is not zero. -/
def Obligations.AdjustShiftsWithSticky : Prop :=
  ∀ (n : Nat) (v : BitVec n) (k : Nat), 1 ≤ n → 1 ≤ k →
    (adjust v k).toNat = (v.toNat / 2 ^ k) ||| (if v.toNat % 2 ^ k = 0 then 0 else 1)

/-- 42_subnormal_rounder.md R102: the window, the round bit and the sticky of the adjusted value are those of the exact
value, however many bits were shifted out. -/
def Obligations.AdjustKeepsTheRoundingDecision : Prop :=
  ∀ (f : FloatFormat) (v : BitVec f.prodWidth) (k : Nat), f.valid = true → 1 ≤ k →
    (window f (adjust v k)).toNat = v.toNat / 2 ^ (k + f.m + 1) ∧
    (roundBit f (adjust v k) = true ↔ (v.toNat / 2 ^ (k + f.m)) % 2 = 1) ∧
    (sticky f (adjust v k) = true ↔ v.toNat % 2 ^ (k + f.m) ≠ 0)

/-- 42_subnormal_rounder.md R104 and R105: window, round bit and sticky bits make up P. -/
def Obligations.RounderInputSplitsInThree : Prop :=
  ∀ (f : FloatFormat) (p : BitVec f.prodWidth),
    p.toNat = (window f p).toNat * 2 ^ (f.m + 1) + (roundBit f p).toNat * 2 ^ f.m + (stickyBits f p).toNat ∧
    (sticky f p = true ↔ (stickyBits f p).toNat ≠ 0)

/-- 42_subnormal_rounder.md R106: round up when more than half an ULP is discarded, or exactly half with an odd window;
and the equivalent short form. -/
def Obligations.RoundsToNearestTiesToEven : Prop :=
  (∀ (f : FloatFormat) (p : BitVec f.prodWidth),
    doRoundUp (roundBit f p) (sticky f p) ((window f p).getLsbD 0) = true ↔
      2 ^ f.m < p.toNat % 2 ^ (f.m + 1) ∨
      (p.toNat % 2 ^ (f.m + 1) = 2 ^ f.m ∧ (window f p).toNat % 2 = 1)) ∧
  (∀ r s l : Bool, doRoundUp r s l = (r && (s || l)))

/-- 42_subnormal_rounder.md R107 and R108: the sum is exact; a carry makes the significand 2^m and adds one to the exponent
field; it happens only when the window is all ones and rounds up, so never when the top window bit is clear. -/
def Obligations.CarryRestoresTheLeadingBit : Prop :=
  ∀ (f : FloatFormat) (win : BitVec f.sigWidth) (up : Bool) (eIn : Int),
    let sum := roundedSum f win up
    let r := carryOut f sum eIn
    sum.toNat = win.toNat + up.toNat ∧
    (sum.getLsbD (f.m + 1) = true ↔ up = true ∧ win = BitVec.allOnes f.sigWidth) ∧
    (sum.getLsbD (f.m + 1) = true → r.rounded.toNat = 2 ^ f.m ∧ r.e = eIn + 1) ∧
    (sum.getLsbD (f.m + 1) = false → r.rounded.toNat = sum.toNat ∧ r.e = eIn) ∧
    (win.getLsbD f.m = false → sum.getLsbD (f.m + 1) = false)

/-- 42_subnormal_rounder.md R111, L1 to L5: what the two paths into the Rounder look like, and what a carry and a promotion
give. -/
def Obligations.SubnormalAndNormalPathShapes : Prop :=
  ∀ (f : FloatFormat) (a b : ExtractedFields f), f.valid = true →
    isFiniteNonzero (classify f a) = true → isFiniteNonzero (classify f b) = true →
    LawEInZeroIffSubnormalPath f a b ∧ LawSubnormalPathShape f a b ∧ LawNormalPathShape f a b ∧
    LawCarryGivesTwoPowM f a b ∧ LawPromotionGivesSmallestNormal f a b

/-- 42_subnormal_rounder.md R109: overflow to Infinity, promotion, or the exponent field kept; overflow is "reaches or
passes" (the spec's decision D5). -/
def Obligations.FinalStepEncodesTheResult : Prop :=
  ∀ (f : FloatFormat) (sign : BitVec 1) (eIn : Int) (r : Rounded f), f.valid = true → 0 ≤ r.e →
    let z := extract f (finalStep f sign eIn r)
    z.sign = sign ∧
    (2 ^ f.e - 1 ≤ r.e → z.exponentField = onesField f ∧ z.mantissaField = 0) ∧
    (r.e < 2 ^ f.e - 1 → z.mantissaField.toNat = r.rounded.toNat % 2 ^ f.m ∧
      (eIn = 0 ∧ 2 ^ f.m ≤ r.rounded.toNat → z.exponentField.toNat = 1) ∧
      (¬(eIn = 0 ∧ 2 ^ f.m ≤ r.rounded.toNat) → (z.exponentField.toNat : Int) = r.e))

/-- 42_subnormal_rounder.md R111, L6 and L7: the finite path never returns a NaN and its sign is always the xor. -/
def Obligations.FinitePathIsNeverNaN : Prop :=
  ∀ (f : FloatFormat) (a b : ExtractedFields f), f.valid = true →
    isFiniteNonzero (classify f a) = true → isFiniteNonzero (classify f b) = true →
    LawFinitePathNotNaN f a b ∧ LawFinitePathSign f a b

/-- 42_subnormal_rounder.md R111, L8: the finite path returns Zero exactly when the exact magnitude is at most half the
smallest subnormal. -/
def Obligations.UnderflowToZeroExactly : Prop :=
  ∀ (f : FloatFormat) (a b : ExtractedFields f), f.valid = true →
    isFiniteNonzero (classify f a) = true → isFiniteNonzero (classify f b) = true →
    LawZeroIffHalfSmallestSubnormal f a b

/-- 42_subnormal_rounder.md R113: the finite path returns Infinity exactly from the overflow threshold upward. The threshold
is the spec's from general knowledge (PRESUMED, log entry 21). -/
def Obligations.OverflowToInfinityExactly : Prop :=
  ∀ (f : FloatFormat) (a b : ExtractedFields f), f.valid = true →
    isFiniteNonzero (classify f a) = true → isFiniteNonzero (classify f b) = true →
    (classify f (extract f (finitePath f a b)) = .infinity ↔
      ((2 : ℚ) ^ (f.m + 1) - 1 / 2) * (2 : ℚ) ^ ((bias f : Int) - (f.m : Int)) ≤ exactMagnitude f a b)

/-- 42_subnormal_rounder.md R113, the specification the datapath must meet: for all finite operands, the product is the
nearest representable magnitude, ties to even, with the sign the xor of the signs. The definition `CorrectlyRounded` is
PRESUMED (log entry 21): the spec supplies it from general knowledge. -/
def Obligations.MultiplyIsCorrectlyRounded : Prop :=
  ∀ (f : FloatFormat) (a b : BitVec f.width), f.valid = true →
    isFinite (classify f (extract f a)) = true → isFinite (classify f (extract f b)) = true →
    let z := extract f (multiply f a b)
    z.sign = (extract f a).sign ^^^ (extract f b).sign ∧
    CorrectlyRounded f (exactMagnitude f (extract f a) (extract f b)) z

/-- 42_subnormal_rounder.md R111, L9: the result is monotone in the magnitude of the exact product. Infinity stands for
2^(bias+1), as in R113 (PRESUMED, log entry 21). -/
def Obligations.RoundingIsMonotone : Prop :=
  ∀ (f : FloatFormat) (a b c d : BitVec f.width), f.valid = true →
    isFinite (classify f (extract f a)) = true → isFinite (classify f (extract f b)) = true →
    isFinite (classify f (extract f c)) = true → isFinite (classify f (extract f d)) = true →
    LawResultIsMonotone f a b c d

/-! ## ResultAssembler -/

/-- 43_result_assembler.md R121: a NaN first operand is returned quieted, whatever the second is. -/
def Obligations.NaNFirstOperandIsQuieted : Prop :=
  ∀ (f : FloatFormat) (a b : BitVec f.width), f.valid = true → isNaN (classify f (extract f a)) = true →
    let z := extract f (multiply f a b)
    z.sign = (extract f a).sign ∧ z.exponentField = onesField f ∧ z.mantissaField.getLsbD (f.m - 1) = true ∧
    (∀ i, i < f.m - 1 → z.mantissaField.getLsbD i = (extract f a).mantissaField.getLsbD i) ∧
    (classify f (extract f a) = .quietNaN → multiply f a b = a)

/-- 43_result_assembler.md R122: else a NaN second operand is returned quieted; and two NaN operands give the first
quieted in either order. -/
def Obligations.NaNSecondOperandIsQuieted : Prop :=
  ∀ (f : FloatFormat) (a b : BitVec f.width), f.valid = true → isNaN (classify f (extract f b)) = true →
    (isNaN (classify f (extract f a)) = false →
      let z := extract f (multiply f a b)
      z.sign = (extract f b).sign ∧ z.exponentField = onesField f ∧ z.mantissaField.getLsbD (f.m - 1) = true ∧
      (∀ i, i < f.m - 1 → z.mantissaField.getLsbD i = (extract f b).mantissaField.getLsbD i)) ∧
    (isNaN (classify f (extract f a)) = true →
      multiply f a b = quiet f (extract f a) ∧ multiply f b a = quiet f (extract f b))

/-- 43_result_assembler.md R123: on a NaN, quieting sets one bit of the word, gives a QuietNaN and is idempotent. -/
def Obligations.QuietSetsOneBit : Prop :=
  ∀ (f : FloatFormat) (x : BitVec f.width), f.valid = true → isNaN (classify f (extract f x)) = true →
    quiet f (extract f x) = x ||| BitVec.twoPow f.width (f.m - 1) ∧
    classify f (extract f (quiet f (extract f x))) = .quietNaN ∧
    quiet f (extract f (quiet f (extract f x))) = quiet f (extract f x)

/-- 43_result_assembler.md R124 with 30_encoding.md R55: zero times infinity, in either order and for all signs, is the
canonical quiet NaN. Its bits for formats other than half are the spec's decision D6; that it is a positive quiet NaN holds
whatever the payload. -/
def Obligations.ZeroTimesInfinityIsTheCanonicalNaN : Prop :=
  (∀ (f : FloatFormat) (a b : BitVec f.width), f.valid = true →
    (classify f (extract f a) = .zero ∧ classify f (extract f b) = .infinity) ∨
      (classify f (extract f a) = .infinity ∧ classify f (extract f b) = .zero) →
    (multiply f a b).toNat = (2 ^ f.e - 1) * 2 ^ f.m + 2 ^ (f.m - 1) ∧
    (extract f (multiply f a b)).sign = 0 ∧ classify f (extract f (multiply f a b)) = .quietNaN) ∧
  canonicalQNaN .half = 0x7E00#16 ∧ canonicalQNaN .single = 0x7FC00000#32 ∧
  canonicalQNaN .double = 0x7FF8000000000000#64

/-- 43_result_assembler.md R125: an Infinity operand, the other neither a NaN nor Zero. -/
def Obligations.InfinityOperandGivesInfinity : Prop :=
  ∀ (f : FloatFormat) (a b : BitVec f.width), f.valid = true →
    isNaN (classify f (extract f a)) = false → isNaN (classify f (extract f b)) = false →
    classify f (extract f a) ≠ .zero → classify f (extract f b) ≠ .zero →
    classify f (extract f a) = .infinity ∨ classify f (extract f b) = .infinity →
    let z := extract f (multiply f a b)
    z.sign = (extract f a).sign ^^^ (extract f b).sign ∧ z.exponentField = onesField f ∧ z.mantissaField = 0

/-- 43_result_assembler.md R126: a Zero operand, the other Zero, Subnormal or Normal. -/
def Obligations.ZeroOperandGivesZero : Prop :=
  ∀ (f : FloatFormat) (a b : BitVec f.width), f.valid = true →
    isFinite (classify f (extract f a)) = true → isFinite (classify f (extract f b)) = true →
    classify f (extract f a) = .zero ∨ classify f (extract f b) = .zero →
    let z := extract f (multiply f a b)
    z.sign = (extract f a).sign ^^^ (extract f b).sign ∧ z.exponentField = 0 ∧ z.mantissaField = 0

/-- 43_result_assembler.md R128: the branch of the table answers, for every pair of classes (`decisionBranch` is the table
row by row; R127 is its branch 6). -/
def Obligations.DecisionFollowsTheTable : Prop :=
  ∀ (f : FloatFormat) (a b : BitVec f.width),
    let x := extract f a
    let y := extract f b
    let n := decisionBranch (classify f x) (classify f y)
    (n = 1 → multiply f a b = quiet f x) ∧ (n = 2 → multiply f a b = quiet f y) ∧
    (n = 3 → multiply f a b = canonicalQNaN f) ∧ (n = 4 → multiply f a b = infinityOf f (x.sign ^^^ y.sign)) ∧
    (n = 5 → multiply f a b = zeroOf f (x.sign ^^^ y.sign)) ∧ (n = 6 → multiply f a b = finitePath f x y)

/-- 43_result_assembler.md R129: commutative except on pairs of NaNs. -/
def Obligations.CommutesUnlessBothAreNaN : Prop :=
  ∀ (f : FloatFormat) (a b : BitVec f.width),
    ¬(isNaN (classify f (extract f a)) = true ∧ isNaN (classify f (extract f b)) = true) →
    multiply f a b = multiply f b a

/-- 43_result_assembler.md R129: the sign of every result but a NaN is the xor of the operands' top bits. -/
def Obligations.ResultSignIsTheXor : Prop :=
  ∀ (f : FloatFormat) (a b : BitVec f.width), f.valid = true →
    isNaN (classify f (extract f a)) = false → isNaN (classify f (extract f b)) = false →
    ¬(classify f (extract f a) = .zero ∧ classify f (extract f b) = .infinity) →
    ¬(classify f (extract f a) = .infinity ∧ classify f (extract f b) = .zero) →
    (multiply f a b).getLsbD (f.width - 1) = (a.getLsbD (f.width - 1) ^^ b.getLsbD (f.width - 1))

/-- 43_result_assembler.md R129 and 30_encoding.md R57: when the result is a NaN, and that it is never a signaling one. -/
def Obligations.NaNResultsAreQuietAndExplained : Prop :=
  ∀ (f : FloatFormat) (a b : BitVec f.width), f.valid = true →
    classify f (extract f (multiply f a b)) ≠ .signalingNaN ∧
    (isNaN (classify f (extract f (multiply f a b))) = true ↔
      isNaN (classify f (extract f a)) = true ∨ isNaN (classify f (extract f b)) = true ∨
      (classify f (extract f a) = .zero ∧ classify f (extract f b) = .infinity) ∨
      (classify f (extract f a) = .infinity ∧ classify f (extract f b) = .zero))

/-- 43_result_assembler.md R129: multiplying by +1.0 (30_encoding.md R54) is exact. -/
def Obligations.MultiplyingByOneIsExact : Prop :=
  ∀ (f : FloatFormat) (x : BitVec f.width), f.valid = true →
    let one := assemble f { sign := 0, exponentField := BitVec.ofNat f.e (bias f), mantissaField := 0 }
    (isNaN (classify f (extract f x)) = false → multiply f one x = x) ∧
    (isNaN (classify f (extract f x)) = true → multiply f one x = quiet f (extract f x))

/-! ## The four operations -/

/-- 43_result_assembler.md R131: FPMUL.H completes from every state with every operand pair, and its parameters. -/
def Obligations.HalfMultiplyCompletes : Prop :=
  (∀ (a b : ExtractedFields FloatFormat.half) (s : State),
    exec (.fpmulH a b) s = .next
      { inst := .half, a := assemble .half a, b := assemble .half b
        z := multiply .half (assemble .half a) (assemble .half b) }) ∧
  (FloatFormat.half = ⟨10, 5⟩ ∧ FloatFormat.half.width = 16 ∧ bias .half = 15 ∧ emin .half = -14 ∧
    FloatFormat.half.prodWidth = 22) ∧
  (∀ p : BitVec FloatFormat.half.prodWidth, (window .half p).toNat = p.toNat / 2 ^ 11 % 2 ^ 11 ∧
    roundBit .half p = p.getLsbD 10 ∧ (stickyBits .half p).toNat = p.toNat % 2 ^ 10) ∧
  (infinityOf .half 0 = 0x7C00#16 ∧ infinityOf .half 1 = 0xFC00#16 ∧ canonicalQNaN .half = 0x7E00#16) ∧
  (∀ x : BitVec FloatFormat.half.width, isNaN (classify .half (extract .half x)) = true →
    quiet .half (extract .half x) = x ||| 0x0200#16) ∧
  multiply .half 0x3E00#16 0x3E00#16 = 0x4080#16

/-- 43_result_assembler.md R132: FPMUL.S likewise (its canonical NaN literal is the spec's decision D6). -/
def Obligations.SingleMultiplyCompletes : Prop :=
  (∀ (a b : ExtractedFields FloatFormat.single) (s : State),
    exec (.fpmulS a b) s = .next
      { inst := .single, a := assemble .single a, b := assemble .single b
        z := multiply .single (assemble .single a) (assemble .single b) }) ∧
  (FloatFormat.single = ⟨23, 8⟩ ∧ FloatFormat.single.width = 32 ∧ bias .single = 127 ∧ emin .single = -126 ∧
    FloatFormat.single.prodWidth = 48) ∧
  (∀ p : BitVec FloatFormat.single.prodWidth, (window .single p).toNat = p.toNat / 2 ^ 24 % 2 ^ 24 ∧
    roundBit .single p = p.getLsbD 23 ∧ (stickyBits .single p).toNat = p.toNat % 2 ^ 23) ∧
  (infinityOf .single 0 = 0x7F800000#32 ∧ infinityOf .single 1 = 0xFF800000#32 ∧
    canonicalQNaN .single = 0x7FC00000#32) ∧
  (∀ x : BitVec FloatFormat.single.width, isNaN (classify .single (extract .single x)) = true →
    quiet .single (extract .single x) = x ||| 0x00400000#32) ∧
  multiply .single 0x3FC00000#32 0x3FC00000#32 = 0x40100000#32

/-- 43_result_assembler.md R133: FPMUL.D likewise (its canonical NaN literal is the spec's decision D6). -/
def Obligations.DoubleMultiplyCompletes : Prop :=
  (∀ (a b : ExtractedFields FloatFormat.double) (s : State),
    exec (.fpmulD a b) s = .next
      { inst := .double, a := assemble .double a, b := assemble .double b
        z := multiply .double (assemble .double a) (assemble .double b) }) ∧
  (FloatFormat.double = ⟨52, 11⟩ ∧ FloatFormat.double.width = 64 ∧ bias .double = 1023 ∧ emin .double = -1022 ∧
    FloatFormat.double.prodWidth = 106) ∧
  (∀ p : BitVec FloatFormat.double.prodWidth, (window .double p).toNat = p.toNat / 2 ^ 53 % 2 ^ 53 ∧
    roundBit .double p = p.getLsbD 52 ∧ (stickyBits .double p).toNat = p.toNat % 2 ^ 52) ∧
  (infinityOf .double 0 = 0x7FF0000000000000#64 ∧ infinityOf .double 1 = 0xFFF0000000000000#64 ∧
    canonicalQNaN .double = 0x7FF8000000000000#64) ∧
  (∀ x : BitVec FloatFormat.double.width, isNaN (classify .double (extract .double x)) = true →
    quiet .double (extract .double x) = x ||| 0x0008000000000000#64) ∧
  multiply .double 0x3FF8000000000000#64 0x3FF8000000000000#64 = 0x4002000000000000#64

/-- 43_result_assembler.md R134: FPMUL.G(m,e) completes for every supported pair, and the named operations are its
instances at their own pairs. Which pairs are supported is the model's choice, log entry 6. -/
def Obligations.GenericMultiplyCompletes : Prop :=
  (∀ (fmt : FloatFormat) (a b : ExtractedFields fmt) (s : State), Config.supported fmt = true →
    exec (.fpmulG fmt a b) s = .next
      { inst := .generic fmt, a := assemble fmt a, b := assemble fmt b
        z := multiply fmt (assemble fmt a) (assemble fmt b) }) ∧
  (∀ (a b : ExtractedFields FloatFormat.half) (s : State), ∃ x y z : BitVec FloatFormat.half.width,
    exec (.fpmulH a b) s = .next ⟨.half, x, y, z⟩ ∧
    exec (.fpmulG .half a b) s = .next ⟨.generic .half, x, y, z⟩) ∧
  (∀ (a b : ExtractedFields FloatFormat.single) (s : State), ∃ x y z : BitVec FloatFormat.single.width,
    exec (.fpmulS a b) s = .next ⟨.single, x, y, z⟩ ∧
    exec (.fpmulG .single a b) s = .next ⟨.generic .single, x, y, z⟩) ∧
  (∀ (a b : ExtractedFields FloatFormat.double) (s : State), ∃ x y z : BitVec FloatFormat.double.width,
    exec (.fpmulD a b) s = .next ⟨.double, x, y, z⟩ ∧
    exec (.fpmulG .double a b) s = .next ⟨.generic .double, x, y, z⟩)

/-- Every well-formed operation completes from every state (60_exceptions.md R140). That exec answers invalidFormat for a
pair no instance can be made for is the model's choice, log entry 14: by R146 that error is raised when the instance is
made, by no operation. Which pairs those are is log entry 6. -/
def Obligations.OnlyUnsupportedFormatsAreRefused : Prop :=
  ∀ (i : Instr) (s : State),
    (i.wellFormed = true → ∃ t, exec i s = .next t) ∧
    (i.wellFormed = false → exec i s = .refused (.invalidFormat i.inst.fmt.m i.inst.fmt.e))

/-- The frame (10_state.md R27, R30; 20_memory.md R44): performing what is presented changes no signal but `z`. -/
def Obligations.EvaluationChangesOnlyTheOutput : Prop :=
  ∀ (s t : State) (i : Instr), decode s.inst (presentedWords s) = .ok i → exec i s = .next t →
    ∃ z : BitVec s.inst.width, t = { s with z := z }

/-- After any operation its operands stand on the inputs of its own instance and the output is settled (10_state.md
R23). -/
def Obligations.OperandsStandOnTheInputs : Prop :=
  ∀ (i : Instr) (s t : State), exec i s = .next t →
    encode i = (t.inst, presentedWords t) ∧ t.settled

/-- 20_memory.md R46 (1), 10_state.md R27: a result depends on its own operands only, not on the state before. -/
def Obligations.ResultIgnoresTheStateBefore : Prop :=
  ∀ (i : Instr) (s t : State), exec i s = exec i t

/-! ## The step -/

/-- 10_state.md R22: a step performs the operation decoded from what is presented. -/
def Obligations.StepPerformsTheDecodedOperation : Prop :=
  ∀ (s : State) (i : Instr), decode s.inst (presentedWords s) = .ok i → step s = exec i s

/-- 10_state.md R22, R23: a step of an instance that exists is one evaluation; the instance and the inputs are
unchanged. -/
def Obligations.StepIsOneEvaluation : Prop :=
  ∀ s : State, s.inst.supported = true →
    step s = .next { s with z := multiply s.inst.fmt s.a s.b }

/-- 10_state.md R22, R23, R29; 70_reset_and_hazards.md R155, R159: the output is the product of the pair as soon as it is
presented, on every instance, and a step on an instance that exists gives that product. -/
def Obligations.PresentedPairIsEvaluated : Prop :=
  ∀ (i : BlockInstance) (a b : BitVec i.width),
    (present i a b).settled ∧
    (i.supported = true → step (present i a b) = .next { inst := i, a := a, b := b, z := multiply i.fmt a b })

/-- The host's numbering of a table row's word (the model's own, log entries 4 and 5): a word that decodes is run by the
very next step, its operands stand on the inputs, and the output is settled before the step and after it. -/
def Obligations.TableWordRunsNext : Prop :=
  ∀ (s : State) (nbits w : Nat) (i : Instr), decodeTableWord nbits w = some i →
    (s.withFetchWord nbits w).settled ∧
    ∃ t, step (s.withFetchWord nbits w) = .next t ∧ encode i = (t.inst, presentedWords t) ∧ t.settled

/-- 20_memory.md R44: evaluating the same pair again gives the same result. -/
def Obligations.StepIsIdempotent : Prop :=
  ∀ s t : State, step s = .next t → step t = .next t

/-- A step never faults (60_exceptions.md R140; by the type of faults, which has no constructor, log entry 23) and goes on
exactly when the instance exists. That it answers invalidFormat otherwise is the model's choice, log entry 14: by R146 that
error belongs to setup time, never to an evaluation. -/
def Obligations.StepNeverFaults : Prop :=
  ∀ s : State,
    (∀ e, step s ≠ .fault e) ∧ ((∃ t, step s = .next t) ↔ s.inst.supported = true) ∧
    (∀ r, step s = .refused r → r = .invalidFormat s.inst.fmt.m s.inst.fmt.e ∧ s.inst.supported = false)

/-- The machine's invariant (10_state.md R23, R24; 60_exceptions.md R146): every step keeps the instance, keeps it
supported and leaves the output settled. -/
def Obligations.StepKeepsTheInvariant : Prop :=
  ∀ s t : State, s.inv → step s = .next t → t.inv ∧ t.inst = s.inst

/-- 70_reset_and_hazards.md R155, R29: after power-up the output is the product of what the inputs carry. The instance and
the inputs themselves are the model's choice, log entry 3. -/
def Obligations.ResetMeetsTheInvariant : Prop :=
  State.reset.inv ∧ ∃ t, step State.reset = .next t

/-- 60_exceptions.md R146: making an instance, for every implementation's supported set; an instance that is made meets the
invariant. The bounds of `valid_format` and the set are the spec's decision D11. -/
def Obligations.ConfigureMakesSupportedInstances : Prop :=
  ∀ (supportedSet : FloatFormat → Bool) (f : FloatFormat),
    (f.valid = true → supportedSet f = true →
      ∃ t, configure supportedSet f = .ok t ∧ t.inst.fmt = f ∧ t.settled) ∧
    (¬(f.valid = true ∧ supportedSet f = true) → configure supportedSet f = .error (.invalidFormat f.m f.e)) ∧
    (supportedSet .half = true → supportedSet .single = true → supportedSet .double = true →
      f = .half ∨ f = .single ∨ f = .double → ∃ t, configure supportedSet f = .ok t)
end

