-- ==== Sys2Proof/Laws/Codec.lean ====
section
/-! SUPPORT. FieldCodec bit by bit, and everything the decoder can answer. -/

namespace Sys2Proof

theorem extract_sign_bit (f : FloatFormat) (v : BitVec f.width) :
    (extract f v).sign.getLsbD 0 = v.getLsbD (f.e + f.m) := by
  simp [extract]

theorem extract_exponent_bit (f : FloatFormat) (v : BitVec f.width) (i : Nat) (h : i < f.e) :
    (extract f v).exponentField.getLsbD i = v.getLsbD (f.m + i) := by
  simp [extract, h]

theorem extract_mantissa_bit (f : FloatFormat) (v : BitVec f.width) (i : Nat) (h : i < f.m) :
    (extract f v).mantissaField.getLsbD i = v.getLsbD i := by
  simp [extract, h]

/-- Which field a bit of an assembled word comes from (40_fieldcodec_classifier.md R71). -/
theorem assemble_bit (f : FloatFormat) (x : ExtractedFields f) (i : Nat) :
    (assemble f x).getLsbD i =
      if i < f.m then x.mantissaField.getLsbD i
      else if i - f.m < f.e then x.exponentField.getLsbD (i - f.m)
      else x.sign.getLsbD (i - f.m - f.e) := by
  simp only [assemble, BitVec.getLsbD_append]

/-- A supported instance given two words of its own width performs an operation. -/
@[simp] theorem decode_twoWords (i : BlockInstance) (a b : BitVec i.width) (h : i.supported = true) :
    decode i [⟨i.width, a⟩, ⟨i.width, b⟩] = .ok (instrOf i a b) := by
  simp [decode, h]

theorem decode_unsupported (i : BlockInstance) (words : List PortWord) (h : i.supported = false) :
    decode i words = .error (.invalidFormat i.fmt.m i.fmt.e) := by
  simp [decode, h]

/-- Everything the decoder accepts: two words of the width of a supported instance, and nothing else. -/
theorem decode_eq_ok (i : BlockInstance) (words : List PortWord) (instr : Instr) (h : decode i words = .ok instr) :
    i.supported = true ∧ ∃ a b : BitVec i.width,
      words = [⟨i.width, a⟩, ⟨i.width, b⟩] ∧ instr = instrOf i a b := by
  unfold decode at h
  split at h
  · rename_i hs
    split at h
    · rename_i x y
      split at h
      · rename_i hw
        obtain ⟨wx, vx⟩ := x
        obtain ⟨wy, vy⟩ := y
        obtain ⟨h1, h2⟩ := hw
        simp only at h1 h2
        subst h1
        subst h2
        refine ⟨hs, vx, vy, rfl, ?_⟩
        simpa using h.symm
      · simp at h
    · simp at h
  · simp at h

@[simp] theorem instrOf_inst (i : BlockInstance) (a b : BitVec i.width) : (instrOf i a b).inst = i := by
  cases i <;> rfl

end Sys2Proof
end

