-- ==== Sys2Proof/Laws/Components.lean ====
section
/-! SUPPORT. One lemma per component: what it can answer, in the terms its callers need. -/

namespace Sys2Proof.Machine

/-! ### Classifier -/

section classifier

variable (f : FloatFormat) (x : ExtractedFields f)

theorem classify_eq_zero : classify f x = .zero ↔ x.exponentField = 0 ∧ x.mantissaField = 0 := by
  unfold classify; split_ifs <;> simp_all

theorem classify_eq_subnormal : classify f x = .subnormal ↔ x.exponentField = 0 ∧ x.mantissaField ≠ 0 := by
  unfold classify; split_ifs <;> simp_all

theorem classify_eq_normal :
    classify f x = .normal ↔ x.exponentField ≠ 0 ∧ x.exponentField ≠ onesField f := by
  unfold classify; split_ifs <;> simp_all

theorem classify_eq_infinity :
    classify f x = .infinity ↔ x.exponentField ≠ 0 ∧ x.exponentField = onesField f ∧ x.mantissaField = 0 := by
  unfold classify; split_ifs <;> simp_all

theorem isNaN_classify :
    isNaN (classify f x) = true ↔ x.exponentField ≠ 0 ∧ x.exponentField = onesField f ∧ x.mantissaField ≠ 0 := by
  unfold classify isNaN; split_ifs <;> simp_all

end classifier

/-! ### Normalizer -/

/-- Everything the walk of `clz` can answer: it stops at the first set bit below `i`, or there is none. -/
theorem clzBelow_cases {n : Nat} (v : BitVec n) (i : Nat) :
    (clzBelow v i = n ∧ ∀ j, j < i → v.getLsbD j = false) ∨
    ∃ j, j < i ∧ clzBelow v i = n - 1 - j ∧ v.getLsbD j = true ∧ ∀ k, j < k → k < i → v.getLsbD k = false := by
  induction i with
  | zero => exact .inl ⟨rfl, fun j hj => absurd hj (Nat.not_lt_zero j)⟩
  | succ i ih =>
    by_cases hb : v.getLsbD i = true
    · exact .inr ⟨i, by omega, by simp [clzBelow, hb], hb, fun k h1 h2 => by omega⟩
    · have hb' : v.getLsbD i = false := by simpa using hb
      have hw : clzBelow v (i + 1) = clzBelow v i := by simp [clzBelow, hb']
      have hstep : ∀ k, k < i + 1 → ¬ k < i → v.getLsbD k = false := fun k h1 h2 => by
        rw [show k = i by omega]; exact hb'
      rcases ih with ⟨he, hz⟩ | ⟨j, hj, he, hs, hz⟩
      · exact .inl ⟨hw ▸ he, fun k hk => if h : k < i then hz k h else hstep k hk h⟩
      · exact .inr ⟨j, by omega, hw ▸ he, hs, fun k h1 h2 => if h : k < i then hz k h1 h else hstep k h2 h⟩

theorem clz_le {n : Nat} (v : BitVec n) : clz v ≤ n := by
  rcases clzBelow_cases v n with ⟨h, -⟩ | ⟨j, -, h, -⟩ <;> unfold clz <;> omega

/-! ### SubnormalAdjuster -/

/-- The guard for shifts by the width or more changes nothing: such a shift keeps no bit. -/
theorem keptBits_eq {n : Nat} (v : BitVec n) (k : Nat) : keptBits v k = v >>> k := by
  unfold keptBits
  split
  · rename_i h
    exact (BitVec.ushiftRight_eq_zero h).symm
  · rfl

/-- The merged sticky says that the bits shifted out are not all zero, for every shift amount. -/
theorem mergedSticky_eq {n : Nat} (v : BitVec n) (k : Nat) :
    mergedSticky v k = decide (v.toNat % 2 ^ k ≠ 0) := by
  unfold mergedSticky
  split
  · rename_i h
    have hlt : v.toNat < 2 ^ k := lt_of_lt_of_le v.isLt (Nat.pow_le_pow_right (by norm_num) h)
    simp [Nat.mod_eq_of_lt hlt, ← BitVec.toNat_inj]
  · simp [← BitVec.toNat_inj]

/-! ### Rounder -/

section rounder

variable (f : FloatFormat) (p : BitVec f.prodWidth)

theorem window_toNat : (window f p).toNat = p.toNat / 2 ^ (f.m + 1) := by
  have h : p.toNat / 2 ^ (f.m + 1) < 2 ^ (f.m + 1) := by
    rw [Nat.div_lt_iff_lt_mul (by positivity), ← pow_add]
    simpa [two_mul, FloatFormat.prodWidth] using p.isLt
  simp [window, BitVec.extractLsb'_toNat, Nat.shiftRight_eq_div_pow, Nat.mod_eq_of_lt h]

theorem roundBit_eq : roundBit f p = decide (p.toNat / 2 ^ f.m % 2 = 1) := by
  simp [roundBit, BitVec.getLsbD, Nat.testBit_eq_decide_div_mod_eq]

theorem stickyBits_toNat : (stickyBits f p).toNat = p.toNat % 2 ^ f.m := by
  simp [stickyBits, BitVec.extractLsb'_toNat]

end rounder

/-- The two paths into the Rounder (42_subnormal_rounder.md R103). -/
theorem rounderInput_cases (f : FloatFormat) (np : BitVec f.prodWidth) (ne : Int) :
    (0 < subnormalShift f ne ∧
      rounderInput f np ne = { p := adjust np (subnormalShift f ne).toNat, eIn := 0 }) ∨
    (subnormalShift f ne ≤ 0 ∧ rounderInput f np ne = { p := np, eIn := ne + (bias f : Int) }) := by
  unfold rounderInput
  split
  · exact .inl ⟨‹_›, rfl⟩
  · exact .inr ⟨by omega, rfl⟩

/-- Everything the final step can answer (42_subnormal_rounder.md R109). -/
theorem finalStep_cases (f : FloatFormat) (sign : BitVec 1) (eIn : Int) (r : Rounded f) :
    ((emaxField f : Int) ≤ r.e ∧ finalStep f sign eIn r = infinityOf f sign) ∨
    (r.e < (emaxField f : Int) ∧ eIn = 0 ∧ r.rounded.getLsbD f.m = true ∧
      finalStep f sign eIn r = assemble f ⟨sign, 1, r.rounded.extractLsb' 0 f.m⟩) ∨
    (r.e < (emaxField f : Int) ∧ ¬(eIn = 0 ∧ r.rounded.getLsbD f.m = true) ∧
      finalStep f sign eIn r = assemble f ⟨sign, BitVec.ofInt f.e r.e, r.rounded.extractLsb' 0 f.m⟩) := by
  unfold finalStep
  split
  · exact .inl ⟨‹_›, rfl⟩
  · split
    · rename_i h
      exact .inr (.inl ⟨by omega, h.1, h.2, rfl⟩)
    · exact .inr (.inr ⟨by omega, ‹_›, rfl⟩)

end Sys2Proof.Machine
end

