-- ==== Sys2Proof/Laws/PerInstr.lean ====
section
/-! SUPPORT. Statements about every operation as syntax, one lemma per constructor. -/

namespace Sys2Proof.Laws.EncodeShape

open Sys2Proof

/-- The encoder needs the operation's own instance and presents exactly two words of that instance's width
(10_state.md R23, 20_memory.md R43). -/
def Statement (i : Instr) : Prop :=
  (encode i).1 = i.inst ∧ (encode i).2.map PortWord.width = [i.inst.width, i.inst.width]

theorem fpmulH (a b : ExtractedFields FloatFormat.half) : Statement (.fpmulH a b) := ⟨rfl, rfl⟩

theorem fpmulS (a b : ExtractedFields FloatFormat.single) : Statement (.fpmulS a b) := ⟨rfl, rfl⟩

theorem fpmulD (a b : ExtractedFields FloatFormat.double) : Statement (.fpmulD a b) := ⟨rfl, rfl⟩

theorem fpmulG (fmt : FloatFormat) (a b : ExtractedFields fmt) : Statement (.fpmulG fmt a b) := ⟨rfl, rfl⟩

end Sys2Proof.Laws.EncodeShape
end

