-- ==== Sys2Proof/Laws/State.lean ====
section
/-! SUPPORT. The small lemmas of the state: one per field per update, so that no later proof unfolds a record update. -/

namespace Sys2Proof.Machine

/-! ### A new output on an instance -/

@[simp] theorem State.withZ_inst (s : State) (z : BitVec s.inst.width) : ({ s with z := z } : State).inst = s.inst := rfl
@[simp] theorem State.withZ_a (s : State) (z : BitVec s.inst.width) : ({ s with z := z } : State).a = s.a := rfl
@[simp] theorem State.withZ_b (s : State) (z : BitVec s.inst.width) : ({ s with z := z } : State).b = s.b := rfl
@[simp] theorem State.withZ_z (s : State) (z : BitVec s.inst.width) : ({ s with z := z } : State).z = z := rfl

/-! ### Presenting operands -/

@[simp] theorem present_inst (i : BlockInstance) (a b : BitVec i.width) : (present i a b).inst = i := rfl
@[simp] theorem present_a (i : BlockInstance) (a b : BitVec i.width) : (present i a b).a = a := rfl
@[simp] theorem present_b (i : BlockInstance) (a b : BitVec i.width) : (present i a b).b = b := rfl
@[simp] theorem present_z (i : BlockInstance) (a b : BitVec i.width) :
    (present i a b).z = multiply i.fmt a b := rfl

/-! ### A fresh instance -/

@[simp] theorem freshInstance_inst (i : BlockInstance) : (freshInstance i).inst = i := rfl
@[simp] theorem freshInstance_a (i : BlockInstance) : (freshInstance i).a = 0 := rfl
@[simp] theorem freshInstance_b (i : BlockInstance) : (freshInstance i).b = 0 := rfl
@[simp] theorem freshInstance_z (i : BlockInstance) : (freshInstance i).z = multiply i.fmt 0 0 := rfl

/-! ### After power-up -/

@[simp] theorem reset_inst : State.reset.inst = .half := rfl
@[simp] theorem reset_a : State.reset.a = (0 : BitVec FloatFormat.half.width) := rfl
@[simp] theorem reset_b : State.reset.b = (0 : BitVec FloatFormat.half.width) := rfl
@[simp] theorem reset_z : State.reset.z = multiply FloatFormat.half 0 0 := rfl

/-! ### An evaluation -/

@[simp] theorem evaluate_inst (i : BlockInstance) (a b : ExtractedFields i.fmt) : (evaluate i a b).inst = i := rfl
@[simp] theorem evaluate_a (i : BlockInstance) (a b : ExtractedFields i.fmt) :
    (evaluate i a b).a = assemble i.fmt a := rfl
@[simp] theorem evaluate_b (i : BlockInstance) (a b : ExtractedFields i.fmt) :
    (evaluate i a b).b = assemble i.fmt b := rfl
@[simp] theorem evaluate_z (i : BlockInstance) (a b : ExtractedFields i.fmt) :
    (evaluate i a b).z = resolve i.fmt a b := rfl

end Sys2Proof.Machine
end

