-- ==== Sys2Proof/Laws/Step.lean ====
section
/-! SUPPORT. Everything an operation and a step can answer, said once. -/

namespace Sys2Proof.Machine

/-- The operation a supported instance performs is one evaluation of the words' fields, from every state. -/
theorem exec_instrOf (i : BlockInstance) (a b : BitVec i.width) (s : State) (h : i.supported = true) :
    exec (instrOf i a b) s = .next (evaluate i (extract i.fmt a) (extract i.fmt b)) := by
  cases i with
  | half => rfl
  | single => rfl
  | double => rfl
  | generic fmt =>
    have h' : Config.supported fmt = true := h
    simp [instrOf, exec, execFpmulG, h']

/-- Everything an operation can answer: one evaluation on its own instance, or InvalidFormat. -/
theorem exec_cases (i : Instr) (s : State) :
    (i.wellFormed = true ∧ ∃ a b : ExtractedFields i.inst.fmt, exec i s = .next (evaluate i.inst a b)) ∨
    (i.wellFormed = false ∧ exec i s = .refused (.invalidFormat i.inst.fmt.m i.inst.fmt.e)) := by
  cases i with
  | fpmulH a b => exact .inl ⟨rfl, a, b, rfl⟩
  | fpmulS a b => exact .inl ⟨rfl, a, b, rfl⟩
  | fpmulD a b => exact .inl ⟨rfl, a, b, rfl⟩
  | fpmulG fmt a b =>
    by_cases h : Config.supported fmt = true
    · exact .inl ⟨h, a, b, by simp [exec, execFpmulG, h]⟩
    · have h' : Config.supported fmt = false := by simpa using h
      exact .inr ⟨h', by simp [exec, execFpmulG, h']⟩

/-- Everything a step can answer: one evaluation of what is presented, or InvalidFormat. -/
theorem step_cases (s : State) :
    (s.inst.supported = true ∧
      step s = .next (evaluate s.inst (extract s.inst.fmt s.a) (extract s.inst.fmt s.b))) ∨
    (s.inst.supported = false ∧ step s = .refused (.invalidFormat s.inst.fmt.m s.inst.fmt.e)) := by
  by_cases h : s.inst.supported = true
  · exact .inl ⟨h, by simp [step, presentedWords, h, exec_instrOf]⟩
  · have h' : s.inst.supported = false := by simpa using h
    exact .inr ⟨h', by simp [step, decode_unsupported _ _ h', refusalOf]⟩

/-- What making an instance can answer (60_exceptions.md R146). -/
theorem configure_cases (supportedSet : FloatFormat → Bool) (f : FloatFormat) :
    (f.valid = true ∧ supportedSet f = true ∧
      configure supportedSet f = .ok (freshInstance (instanceFor f))) ∨
    (¬(f.valid = true ∧ supportedSet f = true) ∧
      configure supportedSet f = .error (.invalidFormat f.m f.e)) := by
  by_cases h : f.valid = true ∧ supportedSet f = true
  · exact .inl ⟨h.1, h.2, by simp [configure, h.1, h.2]⟩
  · exact .inr ⟨h, by simpa [configure] using h⟩

@[simp] theorem instanceFor_fmt (f : FloatFormat) : (instanceFor f).fmt = f := by
  unfold instanceFor
  split
  · simp_all
  · split
    · simp_all
    · split <;> simp_all

end Sys2Proof.Machine
end

