-- ==== Sys2Proof/Tests/Slice0.lean ====
section
/-! SUPPORT. Small tests. Expected results come from spec/: the layouts of 30_encoding.md R50, R51, R54 and the vectors of
95_test_vectors.md (the section is named at each). After them, one witness for every statement that has hypotheses. -/

namespace Sys2Proof.Tests

open Sys2Proof Sys2Proof.Machine

/-- The settled output after a step, if there is a next state. -/
def zAfter : Host.Outcome State Fault Refusal → Option Nat
  | .next s => some s.z.toNat
  | .fault _ => none
  | .refused _ => none

/-- The refusal a step answers, if it does. -/
def refusedWith : Host.Outcome State Fault Refusal → Option Refusal
  | .next _ => none
  | .fault _ => none
  | .refused r => some r

/-- The accepted operation, if the decoder accepts. -/
def accepted : Except DecodeError Instr → Option Instr
  | .ok i => some i
  | .error _ => none

/-- The rejection, if the decoder rejects. -/
def rejected : Except DecodeError Instr → Option DecodeError
  | .ok _ => none
  | .error err => some err

/-- One evaluation of a pair of operand words presented to an instance. -/
def run (i : BlockInstance) (a b : Nat) : Option Nat :=
  zAfter (step (present i (BitVec.ofNat i.width a) (BitVec.ofNat i.width b)))

/-- A half operand, from its word. -/
def h (v : Nat) : ExtractedFields FloatFormat.half := extract .half (BitVec.ofNat 16 v)

/-! ## Well-formedness: an ill-formed term for each check (60_exceptions.md R146) -/

theorem test_no_mantissa_bit_is_refused : (Instr.fpmulG ⟨0, 5⟩ ⟨0, 0, 0⟩ ⟨0, 0, 0⟩).wellFormed = false := by decide
theorem test_one_exponent_bit_is_refused : (Instr.fpmulG ⟨10, 1⟩ ⟨0, 0, 0⟩ ⟨0, 0, 0⟩).wellFormed = false := by decide
theorem test_smallest_format_is_wellFormed : (Instr.fpmulG ⟨1, 2⟩ ⟨0, 0, 0⟩ ⟨0, 0, 0⟩).wellFormed = true := by decide
theorem test_unsupported_instance_is_refused :
    refusedWith (step (freshInstance (.generic ⟨0, 5⟩))) = some (.invalidFormat 0 5) := by decide
theorem test_unsupported_operation_is_refused :
    refusedWith (exec (.fpmulG ⟨10, 1⟩ ⟨0, 0, 0⟩ ⟨0, 0, 0⟩) State.reset) = some (.invalidFormat 10 1) := by decide

/-! ## Decoding: words written out bit by bit from 30_encoding.md R51: sign, exponent field, mantissa field -/

/-- -1.0 and +2.0 (R54). -/
theorem test_decode_fpmulH :
    accepted (decode .half [⟨16, 0b1_01111_0000000000#16⟩, ⟨16, 0b0_10000_0000000000#16⟩]) =
      some (.fpmulH ⟨1, 15, 0⟩ ⟨0, 16, 0⟩) := by decide

/-- Largest finite and -Infinity (R54). -/
theorem test_decode_fpmulS :
    accepted (decode .single [⟨32, 0b0_11111110_11111111111111111111111#32⟩,
        ⟨32, 0b1_11111111_00000000000000000000000#32⟩]) =
      some (.fpmulS ⟨0, 254, 0x7FFFFF⟩ ⟨1, 255, 0⟩) := by decide

/-- Smallest subnormal and -0 (R54). -/
theorem test_decode_fpmulD :
    accepted (decode .double
        [⟨64, 0b0_00000000000_0000000000000000000000000000000000000000000000000001#64⟩,
         ⟨64, 0b1_00000000000_0000000000000000000000000000000000000000000000000000#64⟩]) =
      some (.fpmulD ⟨0, 0, 1⟩ ⟨1, 0, 0⟩) := by decide

/-- The layout `s ee mm` of 95_test_vectors.md section 5. -/
theorem test_decode_fpmulG :
    accepted (decode (.generic ⟨2, 2⟩) [⟨5, 0b1_10_01#5⟩, ⟨5, 0b0_11_10#5⟩]) =
      some (.fpmulG ⟨2, 2⟩ ⟨1, 2, 1⟩ ⟨0, 3, 2⟩) := by decide

theorem test_encode_fpmulH :
    encode (.fpmulH ⟨1, 15, 0⟩ ⟨0, 13, 0x155⟩) = (.half, [⟨16, 0xBC00#16⟩, ⟨16, 0x3555#16⟩]) := by decide

theorem test_wrong_width_is_rejected :
    rejected (decode .half [⟨16, 0#16⟩, ⟨32, 0#32⟩]) = some (.operandWidth 16 16 32) := by decide

theorem test_wrong_count_is_rejected : rejected (decode .half [⟨16, 0#16⟩]) = some (.operandCount 1) := by decide

theorem test_table_word_is_the_first_operand :
    decodeTableWord 16 0xBC00 = some (.fpmulH ⟨1, 15, 0⟩ ⟨0, 0, 0⟩) := by decide

/-! ## The four operations, one step each (95_test_vectors.md, the section at each) -/

/-- Section 2.5: the carry takes the exponent field from 30 to 31. -/
theorem test_fpmulH_carry_into_infinity : run .half 0x3C01 0x7BFE = some 0x7C00 := by decide

/-- Section 2.5: the merged sticky turns a tie into above half. -/
theorem test_fpmulH_merged_sticky : run .half 0x0401 0x0FFF = some 0x0001 := by decide

/-- Section 2.7: a subnormal rounded up is promoted to the smallest normal. -/
theorem test_fpmulS_promotion : run .single 0x00800000 0x3F7FFFFF = some 0x00800000 := by decide

/-- Section 2.7, special operands: a signaling NaN second operand, sign and payload kept. -/
theorem test_fpmulS_nan_b : run .single 0x3F800000 0xFFBFFFFF = some 0xFFFFFFFF := by decide

/-- Section 2.7: pi times -e. -/
theorem test_fpmulD_negative_inexact :
    run .double 0x400921FB54442D18 0xC005BF0A8B145769 = some 0xC02114580B45D474 := by decide

/-- Section 2.7: `E_in` 3070, far above the all-ones field. -/
theorem test_fpmulD_overflow_above_all_ones :
    run .double 0x7FEFFFFFFFFFFFFF 0x7FEFFFFFFFFFFFFF = some 0x7FF0000000000000 := by decide

/-- Section 2.8, format (2, 3): 0.0625 times 0.75. -/
theorem test_fpmulG_subnormal_round_up : run (.generic ⟨2, 3⟩) 0x01 0x0A = some 0x01 := by decide

/-- Section 2.8, format (7, 8): Infinity times zero. -/
theorem test_fpmulG_invalid : run (.generic ⟨7, 8⟩) 0x7F80 0x0000 = some 0x7FC0 := by decide

/-- 70_reset_and_hazards.md R155, 43_result_assembler.md R126: +0 times +0 after power-up. -/
theorem test_reset_output : State.reset.z.toNat = 0x0000 := by decide

/-- 10_state.md R23, R29: the output is the product as soon as the operands are driven, before any step
(95_test_vectors.md section 1.2). -/
theorem test_output_follows_the_inputs : (present .half 0xBC00 0x3C00).z.toNat = 0xBC00 := by decide

/-! ## Witnesses: for every statement with hypotheses, values that meet them, at the ends of the ranges -/

theorem witness_DecodeOfEncodeIsTheOperation :
    (Instr.fpmulH (h 0xFFFF) (h 0)).wellFormed = true ∧ (Instr.fpmulG ⟨1, 2⟩ ⟨1, 3, 1⟩ ⟨0, 0, 0⟩).wellFormed = true := by
  decide

theorem witness_EncodeOfDecodeIsThePresentation :
    decode (.generic ⟨1, 2⟩) [⟨4, 0xF#4⟩, ⟨4, 0#4⟩] = .ok (.fpmulG ⟨1, 2⟩ ⟨1, 3, 1⟩ ⟨0, 0, 0⟩) := rfl

theorem witness_EveryOperandPairDecodes :
    BlockInstance.half.supported = true ∧ (BlockInstance.generic ⟨1, 2⟩).supported = true := by decide

theorem witness_DecoderRejectsByName :
    (BlockInstance.generic ⟨0, 2⟩).supported = false ∧
    (BlockInstance.half.supported = true ∧ ([] : List PortWord).length ≠ 2) ∧
    (BlockInstance.half.supported = true ∧ ¬((17 : Nat) = BlockInstance.half.width ∧ 16 = BlockInstance.half.width)) := by
  decide

/-- One pattern of every class, at the edges of the class (30_encoding.md R53). -/
theorem witness_ClassesByFieldValues :
    FloatFormat.half.valid = true ∧ classify _ (h 0x8000) = .zero ∧ classify _ (h 0x0001) = .subnormal ∧
    classify _ (h 0x03FF) = .subnormal ∧ classify _ (h 0x0400) = .normal ∧ classify _ (h 0x7BFF) = .normal ∧
    classify _ (h 0xFC00) = .infinity ∧ classify _ (h 0x7C01) = .signalingNaN ∧
    classify _ (h 0x7DFF) = .signalingNaN ∧ classify _ (h 0x7E00) = .quietNaN ∧ classify _ (h 0xFFFF) = .quietNaN := by
  decide

theorem witness_SignificandHasTheImplicitBit :
    classify _ (h 0x0000) = .zero ∧ classify _ (h 0x03FF) = .subnormal ∧ classify _ (h 0x7BFF) = .normal := by decide

theorem witness_ExponentValueIsUnbiased :
    FloatFormat.half.valid = true ∧ isFinite (classify _ (h 0x0000)) = true ∧ exponentValue _ (h 0x0000) = -14 ∧
    isFinite (classify _ (h 0x7BFF)) = true ∧ exponentValue _ (h 0x7BFF) = 15 := by decide

theorem witness_SignificandProductIsExact :
    classify _ (h 0x0400) = .normal ∧ classify _ (h 0xFBFF) = .normal ∧ classify _ (h 0x8000) = .zero := by decide

theorem witness_SignAndExponentOfTheProduct :
    FloatFormat.half.valid = true ∧ isFinite (classify _ (h 0x0001)) = true ∧ exponentSum _ (h 0x0001) (h 0x0001) = -28 ∧
    isFinite (classify _ (h 0x7BFF)) = true ∧ exponentSum _ (h 0x7BFF) (h 0xFBFF) = 30 ∧
    (h 0x7BFF).sign ≠ (h 0xFBFF).sign := by decide

theorem witness_LeadingZerosAreCounted : (0#22) = 0 ∧ clz (0#22) = 22 ∧ (0x000001#22) ≠ 0 ∧ clz (0x000001#22) = 21 := by
  decide

theorem witness_NormalizingShiftLosesNothing : (0x1FFC00#22) ≠ 0 ∧ normProduct (0x1FFC00#22) = 0x3FF800#22 := by decide

theorem witness_NormalizedProductIsExact : product _ (h 0x0001) (h 0x0001) ≠ 0 := by decide

/-- The two ends of every range of 41_multiplier_normalizer.md R94, half. -/
theorem witness_SignedExponentRanges :
    FloatFormat.half.valid = true ∧ isFiniteNonzero (classify _ (h 0x0001)) = true ∧
    isFiniteNonzero (classify _ (h 0x7BFF)) = true ∧
    normExponent (exponentSum _ (h 0x0001) (h 0x0001)) (product _ (h 0x0001) (h 0x0001)) = -48 ∧
    normExponent (exponentSum _ (h 0x7BFF) (h 0x7BFF)) (product _ (h 0x7BFF) (h 0x7BFF)) = 31 := by decide

/-- 95_test_vectors.md section 2.4, shifts below, at and above the width. -/
theorem witness_AdjustShiftsWithSticky :
    adjust (0x200001#22) 1 = 0x100001#22 ∧ adjust (0x3FFFFF#22) 21 = 1#22 ∧ adjust (0x200000#22) 22 = 1#22 ∧
    adjust (0x200000#22) 34 = 1#22 := by decide

theorem witness_AdjustKeepsTheRoundingDecision :
    FloatFormat.half.valid = true ∧ roundBit .half (adjust (0x2003FF#22) 11) = true ∧
    sticky .half (adjust (0x2003FF#22) 11) = true := by decide

/-- 42_subnormal_rounder.md R107, R108: a carry, no carry, and a clear top bit. -/
theorem witness_CarryRestoresTheLeadingBit :
    (roundedSum .half 0x7FF#11 true).getLsbD 11 = true ∧ (roundedSum .half 0x7FE#11 true).getLsbD 11 = false ∧
    (0x3FF#11).getLsbD 10 = false := by decide

/-- 95_test_vectors.md section 2.5: shift 0, shift 1 with promotion, and a carry. -/
theorem witness_SubnormalAndNormalPathShapes :
    FloatFormat.half.valid = true ∧ isFiniteNonzero (classify _ (h 0x0400)) = true ∧
    isFiniteNonzero (classify _ (h 0x3C00)) = true ∧ isFiniteNonzero (classify _ (h 0x3BFF)) = true ∧
    isFiniteNonzero (classify _ (h 0x3E00)) = true ∧ isFiniteNonzero (classify _ (h 0x3555)) = true ∧
    shiftOf _ (h 0x0400) (h 0x3C00) = 0 ∧ shiftOf _ (h 0x0400) (h 0x3BFF) = 1 ∧
    (finiteRounderInput _ (h 0x0400) (h 0x3BFF)).eIn = 0 ∧
    (roundedOf _ (h 0x0400) (h 0x3BFF)).rounded.getLsbD 10 = true ∧
    carryOf _ (h 0x3E00) (h 0x3555) = true := by decide

/-- 42_subnormal_rounder.md R109: E at 31 (overflow), promotion at E 0, E at 30 (kept). -/
theorem witness_FinalStepEncodesTheResult :
    FloatFormat.half.valid = true ∧
    finalStep .half 0 31 ⟨0x7FF#11, 31⟩ = 0x7C00#16 ∧ finalStep .half 0 0 ⟨0x400#11, 0⟩ = 0x0400#16 ∧
    finalStep .half 0 0 ⟨0x3FF#11, 0⟩ = 0x03FF#16 ∧ finalStep .half 1 30 ⟨0x400#11, 30⟩ = 0xF800#16 := by decide

theorem witness_FinitePathIsNeverNaN :
    FloatFormat.half.valid = true ∧ isFiniteNonzero (classify _ (h 0xFBFF)) = true ∧
    isFiniteNonzero (classify _ (h 0x7BFF)) = true ∧ finitePath _ (h 0xFBFF) (h 0x7BFF) = 0xFC00#16 := by decide

/-- 42_subnormal_rounder.md R111 L8: exactly half the smallest subnormal, and just above it. -/
theorem witness_UnderflowToZeroExactly :
    FloatFormat.half.valid = true ∧ isFiniteNonzero (classify _ (h 0x3800)) = true ∧
    isFiniteNonzero (classify _ (h 0x3801)) = true ∧ isFiniteNonzero (classify _ (h 0x0001)) = true ∧
    finitePath _ (h 0x3800) (h 0x0001) = 0x0000#16 ∧ finitePath _ (h 0x3801) (h 0x0001) = 0x0001#16 := by decide

/-- 95_test_vectors.md section 2.5: the top binade stays finite; largest finite times two overflows. -/
theorem witness_OverflowToInfinityExactly :
    FloatFormat.half.valid = true ∧ isFiniteNonzero (classify _ (h 0x7BFF)) = true ∧
    isFiniteNonzero (classify _ (h 0x3C00)) = true ∧ isFiniteNonzero (classify _ (h 0x4000)) = true ∧
    finitePath _ (h 0x7BFF) (h 0x3C00) = 0x7BFF#16 ∧ finitePath _ (h 0x7BFF) (h 0x4000) = 0x7C00#16 := by decide

theorem witness_MultiplyIsCorrectlyRounded :
    FloatFormat.half.valid = true ∧ isFinite (classify _ (h 0x8000)) = true ∧ isFinite (classify _ (h 0x3C01)) = true ∧
    isFinite (classify _ (h 0x3E01)) = true := by decide

/-- The premise of monotonicity, at equal magnitudes of the exact products. -/
theorem witness_RoundingIsMonotone :
    FloatFormat.half.valid = true ∧ isFinite (classify _ (h 0x3C01)) = true ∧ isFinite (classify _ (h 0x3E01)) = true ∧
    exactMagnitude _ (h 0x3C01) (h 0x3E01) ≤ exactMagnitude _ (h 0x3C01) (h 0x3E01) :=
  ⟨by decide, by decide, by decide, le_refl _⟩

theorem witness_NaNFirstOperandIsQuieted :
    FloatFormat.half.valid = true ∧ isNaN (classify _ (h 0x7C01)) = true ∧ classify _ (h 0xFE02) = .quietNaN := by decide

theorem witness_NaNSecondOperandIsQuieted :
    FloatFormat.half.valid = true ∧ isNaN (classify _ (h 0x7DFF)) = true ∧ isNaN (classify _ (h 0x7C00)) = false ∧
    isNaN (classify _ (h 0xFE02)) = true := by decide

theorem witness_QuietSetsOneBit : FloatFormat.half.valid = true ∧ isNaN (classify _ (h 0xFDFF)) = true := by decide

theorem witness_ZeroTimesInfinityIsTheCanonicalNaN :
    FloatFormat.half.valid = true ∧ classify _ (h 0x8000) = .zero ∧ classify _ (h 0xFC00) = .infinity := by decide

theorem witness_InfinityOperandGivesInfinity :
    FloatFormat.half.valid = true ∧ classify _ (h 0xFC00) = .infinity ∧ classify _ (h 0x0001) = .subnormal ∧
    isNaN (classify _ (h 0xFC00)) = false ∧ isNaN (classify _ (h 0x0001)) = false := by decide

theorem witness_ZeroOperandGivesZero :
    FloatFormat.half.valid = true ∧ classify _ (h 0x8000) = .zero ∧ isFinite (classify _ (h 0x8000)) = true ∧
    isFinite (classify _ (h 0x7BFF)) = true := by decide

/-- A pair for each branch of 43_result_assembler.md R128. -/
theorem witness_DecisionFollowsTheTable :
    decisionBranch (classify _ (h 0x7C01)) (classify _ (h 0xFE02)) = 1 ∧
    decisionBranch (classify _ (h 0x7C00)) (classify _ (h 0x7E00)) = 2 ∧
    decisionBranch (classify _ (h 0x7C00)) (classify _ (h 0x0000)) = 3 ∧
    decisionBranch (classify _ (h 0x7C00)) (classify _ (h 0x8001)) = 4 ∧
    decisionBranch (classify _ (h 0x8000)) (classify _ (h 0x7BFF)) = 5 ∧
    decisionBranch (classify _ (h 0x0001)) (classify _ (h 0x3C00)) = 6 := by decide

/-- One NaN operand, and none. -/
theorem witness_CommutesUnlessBothAreNaN :
    ¬(isNaN (classify _ (h 0x7C01)) = true ∧ isNaN (classify _ (h 0x3C00)) = true) ∧
    ¬(isNaN (classify _ (h 0x0001)) = true ∧ isNaN (classify _ (h 0x3C00)) = true) := by decide

theorem witness_ResultSignIsTheXor :
    FloatFormat.half.valid = true ∧ isNaN (classify _ (h 0x8001)) = false ∧ isNaN (classify _ (h 0x7C00)) = false ∧
    ¬(classify _ (h 0x8001) = .zero ∧ classify _ (h 0x7C00) = .infinity) ∧
    ¬(classify _ (h 0x8001) = .infinity ∧ classify _ (h 0x7C00) = .zero) := by decide

theorem witness_NaNResultsAreQuietAndExplained : FloatFormat.half.valid = true := by decide

theorem witness_MultiplyingByOneIsExact :
    FloatFormat.half.valid = true ∧ isNaN (classify _ (h 0xFC00)) = false ∧ isNaN (classify _ (h 0x7C01)) = true := by
  decide

theorem witness_HalfMultiplyCompletes : isNaN (classify _ (h 0x7C01)) = true := by decide

theorem witness_SingleMultiplyCompletes : isNaN (classify .single (extract .single 0x7F800001#32)) = true := by decide

theorem witness_DoubleMultiplyCompletes :
    isNaN (classify .double (extract .double 0xFFF0000000000001#64)) = true := by decide

theorem witness_GenericMultiplyCompletes : Config.supported ⟨7, 8⟩ = true ∧ Config.supported ⟨1, 2⟩ = true := by decide

theorem witness_OnlyUnsupportedFormatsAreRefused :
    (Instr.fpmulH (h 0) (h 0)).wellFormed = true ∧ (Instr.fpmulG ⟨1, 1⟩ ⟨0, 0, 0⟩ ⟨0, 0, 0⟩).wellFormed = false := by decide

theorem witness_EvaluationChangesOnlyTheOutput :
    decode State.reset.inst (presentedWords State.reset) = .ok (.fpmulH (h 0) (h 0)) ∧
    exec (.fpmulH (h 0) (h 0)) State.reset = .next State.reset := ⟨rfl, rfl⟩

theorem witness_OperandsStandOnTheInputs :
    exec (.fpmulG ⟨1, 2⟩ ⟨0, 1, 1⟩ ⟨0, 0, 1⟩) State.reset = .next ⟨.generic ⟨1, 2⟩, 0x3#4, 0x1#4, 0x2#4⟩ := rfl

theorem witness_StepPerformsTheDecodedOperation :
    decode State.reset.inst (presentedWords State.reset) = .ok (.fpmulH (h 0) (h 0)) := rfl

theorem witness_StepIsOneEvaluation : State.reset.inst.supported = true := by decide

theorem witness_PresentedPairIsEvaluated : (BlockInstance.generic ⟨2, 2⟩).supported = true := by decide

theorem witness_TableWordRunsNext : (decodeTableWord 64 1).isSome = true ∧ (decodeTableWord 4 1).isSome = true := by decide

theorem witness_StepIsIdempotent : step State.reset = .next State.reset := rfl

theorem witness_StepNeverFaults :
    BlockInstance.half.supported = true ∧
    refusedWith (step (freshInstance (.generic ⟨3, 1⟩))) = some (.invalidFormat 3 1) := by decide

theorem witness_StepKeepsTheInvariant : State.reset.inv ∧ step State.reset = .next State.reset := ⟨by decide, rfl⟩

theorem witness_ConfigureMakesSupportedInstances :
    FloatFormat.single.valid = true ∧ Config.supported .single = true ∧ Config.supported .half = true ∧
    Config.supported .double = true ∧ ¬(FloatFormat.valid ⟨0, 8⟩ = true ∧ Config.supported ⟨0, 8⟩ = true) := by decide

end Sys2Proof.Tests
end

/-! The derived parameters of a FloatFormat (00_scope.md R7): the formulas for every format, then their values at the
three named formats. -/

namespace Sys2Proof.Machine

/-- 00_scope.md R7, the bias as its formula. -/
theorem bias_eq (f : FloatFormat) : bias f = 2 ^ (f.e - 1) - 1 := rfl

/-- 00_scope.md R7, the all-ones exponent field as its formula. -/
theorem emaxField_eq (f : FloatFormat) : emaxField f = 2 ^ f.e - 1 := rfl

/-- 00_scope.md R7, the least exponent in terms of the bias. -/
theorem emin_eq (f : FloatFormat) : emin f = 1 - (bias f : Int) := rfl

theorem derivedParameters_half :
    FloatFormat.half.width = 16 ∧ bias .half = 15 ∧ emaxField .half = 31 ∧ emin .half = -14 ∧
    FloatFormat.half.sigWidth = 11 ∧ FloatFormat.half.prodWidth = 22 := by
  decide

theorem derivedParameters_single :
    FloatFormat.single.width = 32 ∧ bias .single = 127 ∧ emaxField .single = 255 ∧ emin .single = -126 ∧
    FloatFormat.single.sigWidth = 24 ∧ FloatFormat.single.prodWidth = 48 := by
  decide

theorem derivedParameters_double :
    FloatFormat.double.width = 64 ∧ bias .double = 1023 ∧ emaxField .double = 2047 ∧ emin .double = -1022 ∧
    FloatFormat.double.sigWidth = 53 ∧ FloatFormat.double.prodWidth = 106 := by
  decide

/-- Settles O9: the formulas hold by definition, and the table is their values at the three named formats. -/
theorem derivedParametersOfTheNamedFormats : Obligations.DerivedParametersOfTheNamedFormats :=
  ⟨fun f => ⟨rfl, bias_eq f, emaxField_eq f, emin_eq f, rfl, rfl⟩,
    derivedParameters_half, derivedParameters_single, derivedParameters_double⟩

end Sys2Proof.Machine

/-! Assembling and extracting are inverse to each other (40_fieldcodec_classifier.md R75). -/

namespace Sys2Proof

/-- Assembling the fields of a word gives the word back. -/
@[simp] theorem assemble_extract (f : FloatFormat) (v : BitVec f.width) : assemble f (extract f v) = v := by
  apply BitVec.eq_of_getLsbD_eq
  intro i hi
  rw [assemble_bit]
  split_ifs with hm he
  · exact extract_mantissa_bit f v i hm
  · rw [extract_exponent_bit f v _ he, Nat.add_sub_of_le (Nat.le_of_not_lt hm)]
  · have htop : i = f.e + f.m := by simp only [FloatFormat.width] at hi; omega
    rw [htop, show f.e + f.m - f.m - f.e = 0 by omega, extract_sign_bit]

/-- The fields of an assembled word are the fields it was made of. -/
@[simp] theorem extract_assemble (f : FloatFormat) (x : ExtractedFields f) : extract f (assemble f x) = x := by
  have hsign : (extract f (assemble f x)).sign = x.sign := by
    apply BitVec.eq_of_getLsbD_eq
    intro i hi
    obtain rfl : i = 0 := by omega
    rw [extract_sign_bit, assemble_bit, if_neg (by omega), if_neg (by omega)]
    congr 1
    omega
  have hexp : (extract f (assemble f x)).exponentField = x.exponentField := by
    apply BitVec.eq_of_getLsbD_eq
    intro i hi
    rw [extract_exponent_bit f _ i hi, assemble_bit, if_neg (by omega), Nat.add_sub_cancel_left, if_pos hi]
  have hman : (extract f (assemble f x)).mantissaField = x.mantissaField := by
    apply BitVec.eq_of_getLsbD_eq
    intro i hi
    rw [extract_mantissa_bit f _ i hi, assemble_bit, if_pos hi]
  calc extract f (assemble f x)
      = ⟨(extract f (assemble f x)).sign, (extract f (assemble f x)).exponentField,
          (extract f (assemble f x)).mantissaField⟩ := rfl
    _ = x := by rw [hsign, hexp, hman]

end Sys2Proof

/-! The interface of the block (10_state.md): what an operation and a step leave on the signals. -/

namespace Sys2Proof.Machine

/-! ### Presenting and evaluating -/

/-- What is presented is settled at once (10_state.md R23, R29). -/
theorem present_settled (i : BlockInstance) (a b : BitVec i.width) : (present i a b).settled := rfl

/-- Evaluating the fields of two words is presenting the words: `multiply` reads exactly these fields. -/
@[simp] theorem evaluate_extract (i : BlockInstance) (a b : BitVec i.width) :
    evaluate i (extract i.fmt a) (extract i.fmt b) = present i a b := by
  simp [evaluate, present, multiply]

/-- An evaluation leaves the output settled: the words it drives carry the fields it was given. -/
theorem evaluate_settled (i : BlockInstance) (a b : ExtractedFields i.fmt) : (evaluate i a b).settled := by
  simp [State.settled, multiply]

/-- An evaluation drives the words the encoder gives its operands. -/
theorem presentedWords_evaluate (i : BlockInstance) (a b : ExtractedFields i.fmt) :
    presentedWords (evaluate i a b) = encodeWords i.fmt a b := rfl

/-! ### What an operation and a step answer -/

/-- Whatever an operation answers is one evaluation, on its own instance, of the operands the encoder reads from it. -/
theorem exec_eq_next (i : Instr) (s t : State) (h : exec i s = .next t) :
    ∃ a b : ExtractedFields i.inst.fmt, t = evaluate i.inst a b ∧ encode i = (i.inst, encodeWords i.inst.fmt a b) := by
  cases i with
  | fpmulH a b => exact ⟨a, b, (Host.Outcome.next.inj h).symm, rfl⟩
  | fpmulS a b => exact ⟨a, b, (Host.Outcome.next.inj h).symm, rfl⟩
  | fpmulD a b => exact ⟨a, b, (Host.Outcome.next.inj h).symm, rfl⟩
  | fpmulG fmt a b =>
    refine ⟨a, b, ?_, rfl⟩
    simp only [exec, execFpmulG] at h
    split at h
    · exact (Host.Outcome.next.inj h).symm
    · cases h

/-- A step of an instance that exists presents the words on its inputs again. -/
theorem step_of_supported (s : State) (h : s.inst.supported = true) :
    step s = .next (present s.inst s.a s.b) := by
  rcases step_cases s with ⟨-, hnext⟩ | ⟨hunsup, -⟩
  · rw [hnext, evaluate_extract]
  · simp [h] at hunsup

/-- A step goes on only on an instance that exists, and then to the words on its inputs presented again. -/
theorem step_eq_next (s t : State) (h : step s = .next t) :
    s.inst.supported = true ∧ t = present s.inst s.a s.b := by
  rcases step_cases s with ⟨hsup, -⟩ | ⟨-, hrefused⟩
  · rw [step_of_supported s hsup] at h
    exact ⟨hsup, (Host.Outcome.next.inj h).symm⟩
  · rw [hrefused] at h
    cases h

/-- A table row's word decodes only where its row length names an instance, whose decoder then reads it. -/
theorem decodeTableWord_eq_some (nbits w : Nat) (i : Instr) (h : decodeTableWord nbits w = some i) :
    ∃ j, instanceOfBits nbits = some j ∧ decode j (tableWords j w) = .ok i := by
  unfold decodeTableWord at h
  split at h
  · rename_i j hj
    split at h
    · rename_i instr hdecode
      exact ⟨j, hj, hdecode.trans (congrArg _ (Option.some.inj h))⟩
    · cases h
  · cases h

/-- The state a table row's word is fetched into: its instance, with the word and zero presented. -/
theorem withFetchWord_eq (s : State) (nbits w : Nat) (j : BlockInstance) (h : instanceOfBits nbits = some j) :
    s.withFetchWord nbits w = present j (BitVec.ofNat j.width w) 0 := by
  simp [State.withFetchWord, h]

/-! ### The statements -/

/-- Settles O58: a step that goes on presents the same words to the same instance. -/
theorem stepKeepsTheInvariant : Obligations.StepKeepsTheInvariant := by
  intro s t _ hstep
  obtain ⟨hsup, rfl⟩ := step_eq_next s t hstep
  exact ⟨⟨hsup, present_settled _ _ _⟩, rfl⟩

/-- Settles O52: the decoder's answer selects the branch of the step. -/
theorem stepPerformsTheDecodedOperation : Obligations.StepPerformsTheDecodedOperation := by
  intro s i hdecode
  simp only [step, hdecode]

/-- Settles O49: performing what is presented is the step, which presents the same words to the same instance. -/
theorem evaluationChangesOnlyTheOutput : Obligations.EvaluationChangesOnlyTheOutput := by
  intro s t i hdecode hexec
  have hstep : step s = .next t := (stepPerformsTheDecodedOperation s i hdecode).trans hexec
  obtain ⟨-, rfl⟩ := step_eq_next s t hstep
  exact ⟨multiply s.inst.fmt s.a s.b, rfl⟩

/-- Settles O50: an operation's answer is one evaluation of its own operands. -/
theorem operandsStandOnTheInputs : Obligations.OperandsStandOnTheInputs := by
  intro i s t hexec
  obtain ⟨a, b, rfl, hencode⟩ := exec_eq_next i s t hexec
  exact ⟨hencode.trans (congrArg _ (presentedWords_evaluate i.inst a b).symm), evaluate_settled i.inst a b⟩

/-- Settles O53: `s` with the product on `z` is the pair of its inputs presented again. -/
theorem stepIsOneEvaluation : Obligations.StepIsOneEvaluation := step_of_supported

/-- Settles O54: the step of the presented state presents the same pair again. -/
theorem presentedPairIsEvaluated : Obligations.PresentedPairIsEvaluated :=
  fun i a b => ⟨present_settled i a b, step_of_supported (present i a b)⟩

/-- Settles O51: no operation has the state among the things its answer is made of. -/
theorem resultIgnoresTheStateBefore : Obligations.ResultIgnoresTheStateBefore := by
  intro i s t
  cases i with
  | fpmulH a b => rfl
  | fpmulS a b => rfl
  | fpmulD a b => rfl
  | fpmulG fmt a b => rfl

/-- Settles O55: the fetched state presents the very words the table's decoder reads, so the step performs `i`. -/
theorem tableWordRunsNext : Obligations.TableWordRunsNext := by
  intro s nbits w i htable
  obtain ⟨j, hinst, hdecode⟩ := decodeTableWord_eq_some nbits w i htable
  obtain ⟨hsup, -⟩ := decode_eq_ok j _ i hdecode
  rw [withFetchWord_eq s nbits w j hinst]
  have hstep := step_of_supported (present j (BitVec.ofNat j.width w) 0) hsup
  have hexec := (stepPerformsTheDecodedOperation _ i hdecode).symm.trans hstep
  exact ⟨present_settled _ _ _, _, hstep, operandsStandOnTheInputs i _ _ hexec⟩

end Sys2Proof.Machine

/-! Every pair of operand words is legal and has one result (20_memory.md R43, R44). -/

namespace Sys2Proof.Machine

/-- Settles O56: the first step answers the presented pair, and presenting that pair again is the same state. -/
theorem stepIsIdempotent : Obligations.StepIsIdempotent := by
  intro s t hstep
  obtain ⟨hsup, rfl⟩ := step_eq_next s t hstep
  exact step_of_supported (present s.inst s.a s.b) hsup

end Sys2Proof.Machine

namespace Sys2Proof

/-- Settles O6: the operation is the one the operation map gives the instance for the two words. -/
theorem everyOperandPairDecodes : Obligations.EveryOperandPairDecodes :=
  fun i a b hsup => ⟨instrOf i a b, decode_twoWords i a b hsup, instrOf_inst i a b⟩

end Sys2Proof

/-! The encoder and the operation map are inverse to each other (30_encoding.md R50, R58). -/

namespace Sys2Proof

/-- The encoder gives back the instance and the two words an operation was read from. -/
@[simp] theorem encode_instrOf (i : BlockInstance) (a b : BitVec i.width) :
    encode (instrOf i a b) = (i, [⟨i.width, a⟩, ⟨i.width, b⟩]) := by
  cases i <;> simp [instrOf, encode, encodeWords]

/-- An operation of the map is well formed just when its instance exists. -/
@[simp] theorem wellFormed_instrOf (i : BlockInstance) (a b : BitVec i.width) :
    (instrOf i a b).wellFormed = i.supported := by
  rw [Instr.wellFormed, instrOf_inst]

/-- Every operation is in the operation map: its instance reads it from its assembled operands. -/
theorem exists_eq_instrOf (i : Instr) : ∃ (j : BlockInstance) (a b : BitVec j.width), i = instrOf j a b := by
  cases i with
  | fpmulH a b => exact ⟨.half, assemble _ a, assemble _ b, by simp [instrOf]⟩
  | fpmulS a b => exact ⟨.single, assemble _ a, assemble _ b, by simp [instrOf]⟩
  | fpmulD a b => exact ⟨.double, assemble _ a, assemble _ b, by simp [instrOf]⟩
  | fpmulG fmt a b => exact ⟨.generic fmt, assemble _ a, assemble _ b, by simp [instrOf]⟩

/-- Settles O4: an operation is read from some pair of words, which the encoder presents again. -/
theorem decodeOfEncodeIsTheOperation : Obligations.DecodeOfEncodeIsTheOperation := by
  intro i hwf
  obtain ⟨j, a, b, rfl⟩ := exists_eq_instrOf i
  rw [wellFormed_instrOf] at hwf
  rw [encode_instrOf]
  exact decode_twoWords j a b hwf

/-- Settles O5: the decoder accepts only two words of a supported instance, as the operation the map gives for them. -/
theorem encodeOfDecodeIsThePresentation : Obligations.EncodeOfDecodeIsThePresentation := by
  intro j words i hdecode
  obtain ⟨hsup, a, b, rfl, rfl⟩ := decode_eq_ok j words i hdecode
  exact ⟨encode_instrOf j a b, (wellFormed_instrOf j a b).trans hsup⟩

/-- Settles O8: each pair has its instance's width, so it decodes to its fields, which are read off the literals. -/
theorem sampleWordsDecode : Obligations.SampleWordsDecode :=
  ⟨decode_twoWords .half _ _ rfl, decode_twoWords .single _ _ rfl, decode_twoWords .double _ _ rfl,
    decode_twoWords (.generic ⟨2, 3⟩) _ _ rfl⟩

end Sys2Proof

/-! The fields of an operand word as numbers (40_fieldcodec_classifier.md R70, R71, R75). -/

namespace Sys2Proof

section fields

variable (f : FloatFormat) (v : BitVec f.width)

theorem extract_sign_toNat : (extract f v).sign.toNat = (v.toNat >>> (f.e + f.m)) % 2 := by
  simp [extract, BitVec.extractLsb'_toNat]

theorem extract_exponentField_toNat : (extract f v).exponentField.toNat = (v.toNat >>> f.m) % 2 ^ f.e := by
  simp [extract, BitVec.extractLsb'_toNat]

theorem extract_mantissaField_toNat : (extract f v).mantissaField.toNat = v.toNat % 2 ^ f.m := by
  simp [extract, BitVec.extractLsb'_toNat]

end fields

/-- A concatenation as a number: the upper part stands above the lower one's bits. -/
theorem toNat_append_eq_add {j k : Nat} (u : BitVec j) (w : BitVec k) :
    (u ++ w).toNat = u.toNat * 2 ^ k + w.toNat := by
  rw [BitVec.toNat_append, ← Nat.shiftLeft_add_eq_or_of_lt w.isLt, Nat.shiftLeft_eq]

/-- An assembled word as a number (R71). -/
theorem assemble_toNat (f : FloatFormat) (x : ExtractedFields f) :
    (assemble f x).toNat =
      x.sign.toNat * 2 ^ (f.e + f.m) + x.exponentField.toNat * 2 ^ f.m + x.mantissaField.toNat := by
  rw [assemble, toNat_append_eq_add, toNat_append_eq_add, pow_add]
  ring

/-- Settles O2: the word is the concatenation of its fields. -/
theorem assemblePlacesTheThreeFields : Obligations.AssemblePlacesTheThreeFields := assemble_toNat

/-- Settles O3: the two round trips, one for each order. -/
theorem fieldCodecRoundTrip : Obligations.FieldCodecRoundTrip := ⟨assemble_extract, extract_assemble⟩

/-- Settles O1: the slices tile the word because assembling them gives it back. -/
theorem extractReadsTheThreeSlices : Obligations.ExtractReadsTheThreeSlices := by
  intro f v
  have htop : f.width - 1 = f.e + f.m := by simp only [FloatFormat.width]; omega
  have htile := assemble_toNat f (extract f v)
  rw [assemble_extract] at htile
  exact ⟨htop ▸ extract_sign_toNat f v, extract_exponentField_toNat f v, extract_mantissaField_toNat f v, htile⟩

end Sys2Proof

/-! The Classifier in numbers (40_fieldcodec_classifier.md R72 to R76): the classes, the significand and the exponent
value by the fields of the operand read as numbers. -/

namespace Sys2Proof.Machine

/-! ### Parameters of a valid format -/

/-- `valid_format(m, e)` of 60_exceptions.md R146 as bounds. -/
theorem valid_iff (f : FloatFormat) : f.valid = true ↔ 1 ≤ f.m ∧ 2 ≤ f.e := by
  simp [FloatFormat.valid]

/-- The exponent fields of a valid format: zero, all ones, and twice the bias of them in between. -/
theorem two_pow_e_eq (f : FloatFormat) (hvalid : f.valid = true) : 2 ^ f.e = 2 * bias f + 2 := by
  obtain ⟨-, he⟩ := (valid_iff f).mp hvalid
  have hdouble : 2 ^ f.e = 2 * 2 ^ (f.e - 1) := by rw [← pow_succ']; congr 1; omega
  have hpos : 0 < 2 ^ (f.e - 1) := by positivity
  rw [bias_eq]
  omega

/-- A valid format has a Normal class: its bias is not zero. -/
theorem one_le_bias (f : FloatFormat) (hvalid : f.valid = true) : 1 ≤ bias f := by
  obtain ⟨-, he⟩ := (valid_iff f).mp hvalid
  have hpow : 2 ^ 1 ≤ 2 ^ (f.e - 1) := Nat.pow_le_pow_right (by norm_num) (by omega)
  rw [bias_eq]
  omega

section classifier

variable (f : FloatFormat) (x : ExtractedFields f)

/-! ### Fields as numbers -/

theorem exponentField_eq_zero : x.exponentField = 0 ↔ x.exponentField.toNat = 0 := by
  simp [← BitVec.toNat_inj]

theorem mantissaField_eq_zero : x.mantissaField = 0 ↔ x.mantissaField.toNat = 0 := by
  simp [← BitVec.toNat_inj]

theorem exponentField_eq_ones : x.exponentField = onesField f ↔ x.exponentField.toNat = 2 ^ f.e - 1 := by
  simp [← BitVec.toNat_inj, onesField]

/-- The quiet bit, the top one of the mantissa field, splits the field's values at the middle. -/
theorem quietBit_iff (hvalid : f.valid = true) :
    x.mantissaField.getLsbD (f.m - 1) = true ↔ 2 ^ (f.m - 1) ≤ x.mantissaField.toNat := by
  obtain ⟨hm, -⟩ := (valid_iff f).mp hvalid
  rw [← BitVec.msb_eq_getLsbD_last, BitVec.msb_eq_decide, decide_eq_true_iff]

/-! ### Classes -/

theorem classify_eq_quietNaN :
    classify f x = .quietNaN ↔ x.exponentField ≠ 0 ∧ x.exponentField = onesField f ∧ x.mantissaField ≠ 0 ∧
      x.mantissaField.getLsbD (f.m - 1) = true := by
  unfold classify; split_ifs <;> simp_all

theorem classify_eq_signalingNaN :
    classify f x = .signalingNaN ↔ x.exponentField ≠ 0 ∧ x.exponentField = onesField f ∧ x.mantissaField ≠ 0 ∧
      x.mantissaField.getLsbD (f.m - 1) = false := by
  unfold classify; split_ifs <;> simp_all

/-- The finite classes of a valid format end just below the all-ones exponent field. -/
theorem isFinite_iff (hvalid : f.valid = true) :
    isFinite (classify f x) = true ↔ x.exponentField.toNat ≤ 2 ^ f.e - 2 := by
  have hfinite : isFinite (classify f x) = true ↔ classify f x = .zero ∨ classify f x = .subnormal ∨
      classify f x = .normal := by simp [isFinite, isFiniteNonzero]
  have hfield : x.exponentField.toNat < 2 ^ f.e := x.exponentField.isLt
  have hcount := two_pow_e_eq f hvalid
  rw [hfinite, classify_eq_zero, classify_eq_subnormal, classify_eq_normal, ne_eq, ne_eq, ne_eq,
    exponentField_eq_zero, mantissaField_eq_zero, exponentField_eq_ones]
  omega

/-! ### The significand and the exponent value -/

/-- The significand as a number: the implicit bit stands above the mantissa field (R73). -/
theorem mantissaValue_toNat :
    (mantissaValue f x).toNat = (if x.exponentField.toNat = 0 then 0 else 2 ^ f.m) + x.mantissaField.toNat := by
  rw [mantissaValue, BitVec.toNat_cons']
  by_cases h : x.exponentField = 0
  · rw [if_pos ((exponentField_eq_zero f x).mp h), decide_eq_false (not_not_intro h)]
    simp
  · rw [if_neg (mt (exponentField_eq_zero f x).mpr h), decide_eq_true h, Bool.toNat_true, Nat.shiftLeft_eq, one_mul]

theorem mantissaValue_eq_zero : (mantissaValue f x).toNat = 0 ↔ classify f x = .zero := by
  have hpos : 0 < 2 ^ f.m := by positivity
  rw [mantissaValue_toNat, classify_eq_zero, exponentField_eq_zero, mantissaField_eq_zero]
  split_ifs <;> omega

/-- The magnitude is the significand scaled by a power of two, which is never zero (R76). -/
theorem magnitude_eq_zero : magnitude f x = 0 ↔ classify f x = .zero := by
  have hscale : (2 : ℚ) ^ (exponentValue f x - (f.m : Int)) ≠ 0 := by positivity
  rw [magnitude, mul_eq_zero_iff_right hscale, Nat.cast_eq_zero, mantissaValue_eq_zero]

theorem exponentValue_eq :
    exponentValue f x =
      if x.exponentField.toNat = 0 then 1 - (bias f : Int) else (x.exponentField.toNat : Int) - (bias f : Int) := by
  simp only [exponentValue, exponentField_eq_zero]

/-- The exponent value of a finite operand lies in the format's exponent range (R74). -/
theorem exponentValue_range (hvalid : f.valid = true) (hfinite : isFinite (classify f x) = true) :
    1 - (bias f : Int) ≤ exponentValue f x ∧ exponentValue f x ≤ (bias f : Int) := by
  have hfield := (isFinite_iff f x hvalid).mp hfinite
  have hcount := two_pow_e_eq f hvalid
  have hbias := one_le_bias f hvalid
  rw [exponentValue_eq]
  split_ifs <;> omega

end classifier

/-! ### The statements -/

/-- Settles O10: each class's condition on the fields, with the fields read as numbers; in a valid format zero and
all ones are different exponent fields, and a quiet bit makes the mantissa field nonzero. -/
theorem classesByFieldValues : Obligations.ClassesByFieldValues := by
  intro f x hvalid
  have hfield : x.exponentField.toNat < 2 ^ f.e := x.exponentField.isLt
  have hcount := two_pow_e_eq f hvalid
  have hhalf : 0 < 2 ^ (f.m - 1) := by positivity
  have hquiet := quietBit_iff f x hvalid
  refine ⟨?zero, ?subnormal, ?normal, ?infinity, ?quietNaN, ?signalingNaN, ?isNaN, ?isInf, ?isZero⟩
  case zero => rw [classify_eq_zero, exponentField_eq_zero, mantissaField_eq_zero]
  case subnormal => rw [classify_eq_subnormal, ne_eq, exponentField_eq_zero, mantissaField_eq_zero]
  case normal => rw [classify_eq_normal, ne_eq, ne_eq, exponentField_eq_zero, exponentField_eq_ones]; omega
  case infinity =>
    rw [classify_eq_infinity, ne_eq, exponentField_eq_zero, exponentField_eq_ones, mantissaField_eq_zero]; omega
  case quietNaN =>
    rw [classify_eq_quietNaN, ne_eq, ne_eq, exponentField_eq_zero, exponentField_eq_ones, mantissaField_eq_zero,
      hquiet]
    omega
  case signalingNaN =>
    rw [classify_eq_signalingNaN, ne_eq, ne_eq, exponentField_eq_zero, exponentField_eq_ones, mantissaField_eq_zero,
      ← Bool.not_eq_true, hquiet]
    omega
  case isNaN => simp [isNaN]
  case isInf => simp [isInf]
  case isZero => simp [isZero]

/-- Settles O11: of the finite classes Normal alone sets the implicit bit; the mantissa field fills the range above. -/
theorem significandHasTheImplicitBit : Obligations.SignificandHasTheImplicitBit := by
  intro f x
  have hvalue := mantissaValue_toNat f x
  have hfield : x.mantissaField.toNat < 2 ^ f.m := x.mantissaField.isLt
  refine ⟨hvalue, (mantissaValue_eq_zero f x).mpr, fun hsubnormal => ?_, fun hnormal => ?_⟩
  · rw [classify_eq_subnormal, ne_eq, exponentField_eq_zero, mantissaField_eq_zero] at hsubnormal
    rw [if_pos hsubnormal.1] at hvalue
    omega
  · rw [classify_eq_normal, ne_eq, exponentField_eq_zero] at hnormal
    rw [if_neg hnormal.1] at hvalue
    rw [pow_succ]
    omega

/-- Settles O12: the value by its definition, and its range for the finite classes. -/
theorem exponentValueIsUnbiased : Obligations.ExponentValueIsUnbiased :=
  fun f x hvalid => ⟨exponentValue_eq f x, exponentValue_range f x hvalid⟩

/-- Settles O13: the magnitude has no other factor that can be zero. -/
theorem significandIsZeroOnlyForZero : Obligations.SignificandIsZeroOnlyForZero :=
  fun f x => ⟨mantissaValue_eq_zero f x, magnitude_eq_zero f x⟩

end Sys2Proof.Machine

/-! The MantissaMultiplier and the Normalizer in numbers (41_multiplier_normalizer.md R85 to R94): the exact product of
the significands, its sign and exponent, its leading zeros, and the product with its leading one brought to the top. -/

namespace Sys2Proof.Machine

/-! ### MantissaMultiplier -/

section multiplier

variable (f : FloatFormat) (a b : ExtractedFields f)

/-- The widening multiply does not wrap: a WideProduct holds the product of any two significands (R85). -/
theorem product_toNat : (product f a b).toNat = (mantissaValue f a).toNat * (mantissaValue f b).toNat := by
  have hwide : f.sigWidth ≤ f.prodWidth := by simp only [FloatFormat.sigWidth, FloatFormat.prodWidth]; omega
  have hfits : (mantissaValue f a).toNat * (mantissaValue f b).toNat < 2 ^ f.prodWidth := by
    rw [FloatFormat.prodWidth, two_mul, pow_add]
    exact Nat.mul_lt_mul'' (mantissaValue f a).isLt (mantissaValue f b).isLt
  rw [product, BitVec.toNat_mul, BitVec.toNat_setWidth_of_le hwide, BitVec.toNat_setWidth_of_le hwide,
    Nat.mod_eq_of_lt hfits]

theorem product_toNat_eq_zero : (product f a b).toNat = 0 ↔ classify f a = .zero ∨ classify f b = .zero := by
  rw [product_toNat, Nat.mul_eq_zero, mantissaValue_eq_zero, mantissaValue_eq_zero]

/-- The result sign is negative just when the operands' signs differ (R86). -/
theorem productSign_eq_one : productSign f a b = 1 ↔ a.sign ≠ b.sign := by
  have hxor : ∀ s t : BitVec 1, s ^^^ t = 1 ↔ s ≠ t := by decide
  exact hxor a.sign b.sign

/-- The xor of the sign bits multiplies the signs they stand for (R86). -/
theorem neg_one_pow_productSign :
    (-1 : ℚ) ^ (productSign f a b).toNat = (-1) ^ a.sign.toNat * (-1) ^ b.sign.toNat := by
  rcases BitVec.eq_zero_or_eq_one a.sign with ha | ha <;> rcases BitVec.eq_zero_or_eq_one b.sign with hb | hb <;>
    simp [productSign, ha, hb]

/-- The exact product of the magnitudes is the significand product at the exponent sum's scale (R88). -/
theorem exactMagnitude_eq :
    exactMagnitude f a b = ((product f a b).toNat : ℚ) * (2 : ℚ) ^ (exponentSum f a b - 2 * (f.m : Int)) := by
  have hscale : (2 : ℚ) ^ (exponentSum f a b - 2 * (f.m : Int)) =
      2 ^ (exponentValue f a - (f.m : Int)) * 2 ^ (exponentValue f b - (f.m : Int)) := by
    rw [← zpow_add₀ two_ne_zero, exponentSum]
    congr 1
    ring
  rw [exactMagnitude, magnitude, magnitude, hscale, product_toNat, Nat.cast_mul]
  ring

/-- Zero and Subnormal share the exponent of field 1, so the field counts as at least 1 (R74). -/
theorem exponentValue_eq_max (x : ExtractedFields f) :
    exponentValue f x = max 1 (x.exponentField.toNat : Int) - (bias f : Int) := by
  rw [exponentValue_eq]
  split_ifs <;> omega

/-- The range of the exponent sum over finite operands (R94). -/
theorem exponentSum_range (hvalid : f.valid = true) (ha : isFinite (classify f a) = true)
    (hb : isFinite (classify f b) = true) :
    2 * (1 - (bias f : Int)) ≤ exponentSum f a b ∧ exponentSum f a b ≤ 2 * (bias f : Int) := by
  have hrangeA := exponentValue_range f a hvalid ha
  have hrangeB := exponentValue_range f b hvalid hb
  rw [exponentSum]
  omega

end multiplier

/-! ### Normalizer -/

section normalizer

variable {n : Nat} {v : BitVec n}

theorem clz_zero : clz (0 : BitVec n) = n := by
  rcases clzBelow_cases (0 : BitVec n) n with ⟨hcount, -⟩ | ⟨j, -, -, hset, -⟩
  · exact hcount
  · simp at hset

/-- The walk of `clz` over a nonzero value stops at its leading one (R90). -/
theorem clz_of_ne_zero (hv : v ≠ 0) :
    clz v < n ∧ v.getLsbD (n - 1 - clz v) = true ∧ ∀ j, n - 1 - clz v < j → v.getLsbD j = false := by
  rcases clzBelow_cases v n with ⟨-, hclear⟩ | ⟨i, hi, hcount, hset, hclear⟩
  · exact absurd (BitVec.eq_of_getLsbD_eq fun j hj => by rw [hclear j hj]; exact BitVec.getLsbD_zero.symm) hv
  · have hclz : clz v = n - 1 - i := hcount
    rw [show n - 1 - clz v = i by omega]
    refine ⟨by omega, hset, fun j hj => ?_⟩
    by_cases hjn : j < n
    · exact hclear j hj hjn
    · exact BitVec.getLsbD_of_ge v j (by omega)

/-- The leading zeros bound a nonzero value from above. -/
theorem toNat_lt_of_clz (hv : v ≠ 0) : v.toNat < 2 ^ (n - clz v) := by
  obtain ⟨hclz, -, hclear⟩ := clz_of_ne_zero hv
  exact Nat.lt_pow_two_of_testBit _ fun j hj => hclear j (by omega)

/-- The normalising shift loses no set bit (R91). -/
theorem normProduct_toNat (hv : v ≠ 0) : (normProduct v).toNat = v.toNat * 2 ^ clz v := by
  have hfits : v.toNat * 2 ^ clz v < 2 ^ n := by
    calc v.toNat * 2 ^ clz v
        < 2 ^ (n - clz v) * 2 ^ clz v := Nat.mul_lt_mul_of_pos_right (toNat_lt_of_clz hv) (by positivity)
      _ = 2 ^ n := by rw [← pow_add, Nat.sub_add_cancel (clz_le v)]
  rw [normProduct, BitVec.toNat_shiftLeft, Nat.shiftLeft_eq, Nat.mod_eq_of_lt hfits]

/-- The normalising shift brings the leading one to the top (R91). -/
theorem normProduct_topBit (hv : v ≠ 0) : (normProduct v).getLsbD (n - 1) = true := by
  obtain ⟨hclz, hset, -⟩ := clz_of_ne_zero hv
  rw [normProduct, BitVec.getLsbD_shiftLeft, hset, decide_eq_true (by omega), decide_eq_false (by omega)]
  rfl

theorem two_pow_le_normProduct (hv : v ≠ 0) : 2 ^ (n - 1) ≤ (normProduct v).toNat :=
  Nat.ge_two_pow_of_testBit (normProduct_topBit hv)

end normalizer

/-- After normalisation the value is still the exact product (R93): the exponent takes back what the shift added. -/
theorem exactMagnitude_eq_normProduct (f : FloatFormat) (a b : ExtractedFields f) (hne : product f a b ≠ 0) :
    exactMagnitude f a b = ((normProduct (product f a b)).toNat : ℚ) *
      (2 : ℚ) ^ (normExponent (exponentSum f a b) (product f a b) - ((f.prodWidth : Int) - 1)) := by
  have hexponent : exponentSum f a b - 2 * (f.m : Int) =
      (clz (product f a b) : Int) +
        (normExponent (exponentSum f a b) (product f a b) - ((f.prodWidth : Int) - 1)) := by
    simp only [normExponent, FloatFormat.prodWidth]
    omega
  rw [exactMagnitude_eq, hexponent, zpow_add₀ two_ne_zero, zpow_natCast, normProduct_toNat hne]
  push_cast
  ring

/-! ### Ranges on the finite path -/

/-- The exponent field enters the Rounder as 0 or in the Normal range, and at most at the exponent's own bound. -/
theorem rounderInput_eIn_range (f : FloatFormat) (np : BitVec f.prodWidth) (ne : Int) :
    0 ≤ (rounderInput f np ne).eIn ∧ (rounderInput f np ne).eIn ≤ max 0 (ne + (bias f : Int)) := by
  rcases rounderInput_cases f np ne with ⟨-, hinput⟩ | ⟨hshift, hinput⟩ <;> rw [hinput]
  · exact ⟨le_refl 0, le_max_left _ _⟩
  · rw [subnormalShift, emin_eq] at hshift
    dsimp only
    omega

/-- Rounding leaves the exponent field or increments it by one (42_subnormal_rounder.md R108). -/
theorem roundSignificand_e_range (f : FloatFormat) (r : RounderInput f) :
    r.eIn ≤ (roundSignificand f r).e ∧ (roundSignificand f r).e ≤ r.eIn + 1 := by
  rw [roundSignificand, carryOut]
  split_ifs <;> dsimp only <;> omega

/-- Subnormal and Normal are the finite classes other than Zero. -/
theorem isFiniteNonzero_iff (c : Classification) : isFiniteNonzero c = true ↔ isFinite c = true ∧ c ≠ .zero := by
  cases c <;> decide

/-! ### The statements -/

/-- Settles O14: the product does not wrap, and a Normal significand is at least 2^m. -/
theorem significandProductIsExact : Obligations.SignificandProductIsExact := by
  intro f a b
  refine ⟨product_toNat f a b, product_toNat_eq_zero f a b, fun ha hb => ?_⟩
  obtain ⟨-, -, -, hnormalA⟩ := significandHasTheImplicitBit f a
  obtain ⟨-, -, -, hnormalB⟩ := significandHasTheImplicitBit f b
  rw [product_toNat, two_mul, pow_add]
  exact Nat.mul_le_mul (hnormalA ha).1 (hnormalB hb).1

/-- Settles O15: the xor of two bits is set when they differ, and the sum's range is twice the exponent value's. -/
theorem signAndExponentOfTheProduct : Obligations.SignAndExponentOfTheProduct := by
  intro f a b
  refine ⟨productSign_eq_one f a b, fun hvalid ha hb => ⟨?_, exponentSum_range f a b hvalid ha hb⟩⟩
  rw [exponentSum, exponentValue_eq_max, exponentValue_eq_max]
  ring

/-- Settles O16: the signs multiply as their xor, the magnitudes as the significand product at the summed exponent. -/
theorem productDenotesTheExactProduct : Obligations.ProductDenotesTheExactProduct := by
  intro f a b
  calc denoted f a * denoted f b
      = ((-1) ^ a.sign.toNat * (-1) ^ b.sign.toNat) * exactMagnitude f a b := by
        rw [denoted, denoted, exactMagnitude]; ring
    _ = _ := by rw [← neg_one_pow_productSign, exactMagnitude_eq, mul_assoc]

/-- Settles O17: a count below that of the leading one names a bit above it. -/
theorem leadingZerosAreCounted : Obligations.LeadingZerosAreCounted := by
  intro n v _
  refine ⟨fun hzero => hzero ▸ clz_zero, fun hne => ?_⟩
  obtain ⟨hlt, hset, hclear⟩ := clz_of_ne_zero hne
  exact ⟨hlt, hset, fun k hk => hclear (n - 1 - k) (by omega)⟩

/-- Settles O18: the value's set bits all lie below its leading zeros, so the shift keeps them. -/
theorem normalizingShiftLosesNothing : Obligations.NormalizingShiftLosesNothing := by
  intro n v hne
  obtain ⟨hlt, -, -⟩ := clz_of_ne_zero hne
  exact ⟨by omega, normProduct_toNat hne, normProduct_topBit hne⟩

/-- Settles O19: the bounds of the normalised product, scaled, are those of the exact magnitude. -/
theorem normalizedProductIsExact : Obligations.NormalizedProductIsExact := by
  intro f a b hne np ne
  have hlow : 2 ^ (f.prodWidth - 1) ≤ np := two_pow_le_normProduct hne
  have hhigh : np < 2 ^ f.prodWidth := (normProduct (product f a b)).isLt
  have hexact : exactMagnitude f a b = (np : ℚ) * (2 : ℚ) ^ (ne - ((f.prodWidth : Int) - 1)) :=
    exactMagnitude_eq_normProduct f a b hne
  have hscale : (0 : ℚ) < 2 ^ (ne - ((f.prodWidth : Int) - 1)) := by positivity
  have hbottom : (2 : ℚ) ^ ne = 2 ^ (f.prodWidth - 1) * 2 ^ (ne - ((f.prodWidth : Int) - 1)) := by
    rw [← zpow_natCast, ← zpow_add₀ two_ne_zero]
    congr 1
    simp only [FloatFormat.prodWidth]
    omega
  have htop : (2 : ℚ) ^ (ne + 1) = 2 ^ f.prodWidth * 2 ^ (ne - ((f.prodWidth : Int) - 1)) := by
    rw [← zpow_natCast, ← zpow_add₀ two_ne_zero]
    congr 1
    ring
  refine ⟨hlow, hhigh, hexact, ?_, ?_⟩
  · rw [hexact, hbottom]
    exact mul_le_mul_of_nonneg_right (by exact_mod_cast hlow) hscale.le
  · rw [hexact, htop]
    exact mul_lt_mul_of_pos_right (by exact_mod_cast hhigh) hscale

/-- Settles O20: each range follows from the one before it, starting at the exponent sum and the leading zeros. -/
theorem signedExponentRanges : Obligations.SignedExponentRanges := by
  intro f a b hvalid ha hb ne r B
  obtain ⟨hfiniteA, hnonzeroA⟩ := (isFiniteNonzero_iff _).mp ha
  obtain ⟨hfiniteB, hnonzeroB⟩ := (isFiniteNonzero_iff _).mp hb
  have hsum : 2 * (1 - B) ≤ exponentSum f a b ∧ exponentSum f a b ≤ 2 * B :=
    exponentSum_range f a b hvalid hfiniteA hfiniteB
  have hproduct : product f a b ≠ 0 := fun hzero =>
    ((product_toNat_eq_zero f a b).mp (by simp [hzero])).elim hnonzeroA hnonzeroB
  have hclz : clz (product f a b) < 2 * (f.m + 1) := (clz_of_ne_zero hproduct).1
  have hne : ne = exponentSum f a b + 1 - (clz (product f a b) : Int) := rfl
  have hshift : subnormalShift f ne = 1 - B - ne := rfl
  have hin : 0 ≤ r.eIn ∧ r.eIn ≤ max 0 (ne + B) := rounderInput_eIn_range f _ ne
  have hout := roundSignificand_e_range f r
  have hbias : 0 ≤ B := Int.natCast_nonneg _
  refine ⟨?sum, ?clz, ?normExponent, ?shift, ?eIn, ?e⟩ <;> omega

end Sys2Proof.Machine

/-! The SubnormalAdjuster in numbers (42_subnormal_rounder.md R101, R102): a shift by any amount, and what the merged
sticky keeps of the bits shifted out. -/

namespace Sys2Proof.Machine

/-- Or-ing a bit into position 0 changes none of the bits above it. -/
theorem or_bit_div_two_pow (x s j : Nat) (hs : s ≤ 1) (hj : 1 ≤ j) : (x ||| s) / 2 ^ j = x / 2 ^ j := by
  have hbelow : s < 2 ^ j := lt_of_le_of_lt hs (Nat.one_lt_two_pow (by omega))
  rw [← Nat.shiftRight_eq_div_pow, Nat.shiftRight_or_distrib, Nat.shiftRight_eq_div_pow s, Nat.div_eq_of_lt hbelow,
    Nat.or_zero, Nat.shiftRight_eq_div_pow]

/-- The adjusted value as a number (R101), for every shift amount, 0 included. -/
theorem adjust_toNat {n : Nat} (v : BitVec n) (k : Nat) (hn : 1 ≤ n) :
    (adjust v k).toNat = (v.toNat / 2 ^ k) ||| (if v.toNat % 2 ^ k = 0 then 0 else 1) := by
  have hbit : (mergedSticky v k).toNat = if v.toNat % 2 ^ k = 0 then 0 else 1 := by
    rw [mergedSticky_eq]
    split_ifs with h <;> simp [h]
  have hfits : (mergedSticky v k).toNat < 2 ^ n :=
    lt_of_le_of_lt (Bool.toNat_le _) (Nat.one_lt_two_pow (by omega))
  rw [adjust, keptBits_eq, BitVec.toNat_or, BitVec.toNat_ushiftRight, Nat.shiftRight_eq_div_pow, BitVec.toNat_ofNat,
    Nat.mod_eq_of_lt hfits, hbit]

/-- A shift by nothing loses nothing. -/
theorem adjust_zero {n : Nat} (v : BitVec n) (hn : 1 ≤ n) : adjust v 0 = v := by
  apply BitVec.eq_of_toNat_eq
  simp [adjust_toNat v 0 hn, Nat.mod_one]

section rounding

variable (f : FloatFormat) (v : BitVec f.prodWidth) (k : Nat)

theorem one_le_prodWidth : 1 ≤ f.prodWidth := by simp only [FloatFormat.prodWidth]; omega

/-- The window lies above the merged sticky, so it is read from the value itself (R102). -/
theorem window_adjust : (window f (adjust v k)).toNat = v.toNat / 2 ^ (k + f.m + 1) := by
  rw [window_toNat, adjust_toNat v k (one_le_prodWidth f), or_bit_div_two_pow _ _ _ (by split_ifs <;> omega) (by omega),
    Nat.div_div_eq_div_mul, ← pow_add, add_assoc]

/-- The round bit lies above the merged sticky too, since the format has a mantissa bit (R102). -/
theorem roundBit_adjust (hm : 1 ≤ f.m) :
    roundBit f (adjust v k) = decide (v.toNat / 2 ^ (k + f.m) % 2 = 1) := by
  rw [roundBit_eq, adjust_toNat v k (one_le_prodWidth f), or_bit_div_two_pow _ _ _ (by split_ifs <;> omega) hm,
    Nat.div_div_eq_div_mul, ← pow_add]

/-- The sticky of the value in the Rounder says that the bits below the round bit are not all zero (R105). -/
theorem sticky_eq (p : BitVec f.prodWidth) : sticky f p = decide (p.toNat % 2 ^ f.m ≠ 0) := by
  simp [sticky, ← BitVec.toNat_inj, stickyBits_toNat]

/-- The merged sticky makes the Rounder's sticky speak of all the bits below the round bit, those shifted out included
(R102). -/
theorem sticky_adjust (hm : 1 ≤ f.m) :
    sticky f (adjust v k) = decide (v.toNat % 2 ^ (k + f.m) ≠ 0) := by
  have hbit : 1 % 2 ^ f.m = 1 := Nat.mod_eq_of_lt (Nat.one_lt_two_pow (by omega))
  have hpow : 0 < 2 ^ k := by positivity
  rw [sticky_eq, adjust_toNat v k (one_le_prodWidth f), Nat.or_mod_two_pow, pow_add, Nat.mod_mul]
  split_ifs with hlost
  · simp [hlost]
  · simp [hbit, hlost]

end rounding

/-- Settles O21: the kept bits are the quotient, the merged sticky tells whether there is a remainder. -/
theorem adjustShiftsWithSticky : Obligations.AdjustShiftsWithSticky := fun _ v k hn _ => adjust_toNat v k hn

/-- Settles O22: the merged sticky lies below the round bit, so the window and the round bit are the value's own. -/
theorem adjustKeepsTheRoundingDecision : Obligations.AdjustKeepsTheRoundingDecision := by
  intro f v k hvalid _
  obtain ⟨hm, -⟩ := (valid_iff f).mp hvalid
  exact ⟨window_adjust f v k, by rw [roundBit_adjust f v k hm, decide_eq_true_iff],
    by rw [sticky_adjust f v k hm, decide_eq_true_iff]⟩

end Sys2Proof.Machine

/-! The Rounder in numbers (42_subnormal_rounder.md R104 to R109): the parts of `P`, the decision, the increment with its
carry, and the final step. -/

namespace Sys2Proof.Machine

/-! ### The decision -/

/-- Round to nearest, ties to even, as a decision over any value `v` whose lowest `d + 1` bits are discarded: the round
bit is the top one of these, the sticky says whether the others are not all zero (R106). -/
theorem doRoundUp_iff (v d : Nat) :
    doRoundUp (decide (v / 2 ^ d % 2 = 1)) (decide (v % 2 ^ d ≠ 0)) (decide (v / 2 ^ (d + 1) % 2 = 1)) = true ↔
      2 ^ d < v % 2 ^ (d + 1) ∨ (v % 2 ^ (d + 1) = 2 ^ d ∧ v / 2 ^ (d + 1) % 2 = 1) := by
  have hsplit : v % 2 ^ (d + 1) = v % 2 ^ d + 2 ^ d * (v / 2 ^ d % 2) := by rw [pow_succ, Nat.mod_mul]
  have hlow : v % 2 ^ d < 2 ^ d := Nat.mod_lt _ (by positivity)
  rw [hsplit]
  rcases Nat.mod_two_eq_zero_or_one (v / 2 ^ d) with hround | hround
  · simp [doRoundUp, hround]
    omega
  · by_cases hexact : v % 2 ^ d = 0
    · simp [doRoundUp, hround, hexact]
    · simp [doRoundUp, hround, hexact]
      omega

/-- The short form of the decision, over its eight cases (R106). -/
theorem doRoundUp_eq (r s l : Bool) : doRoundUp r s l = (r && (s || l)) := by
  cases r <;> cases s <;> cases l <;> rfl

/-- The lowest bit of a word is its parity. -/
theorem getLsbD_zero_eq {n : Nat} (v : BitVec n) : v.getLsbD 0 = decide (v.toNat % 2 = 1) := by
  simp [BitVec.getLsbD, Nat.testBit_zero]

/-- The Rounder's decision on `P`, whose lowest `m + 1` bits are discarded (R106). -/
theorem doRoundUp_window_iff (f : FloatFormat) (p : BitVec f.prodWidth) :
    doRoundUp (roundBit f p) (sticky f p) ((window f p).getLsbD 0) = true ↔
      2 ^ f.m < p.toNat % 2 ^ (f.m + 1) ∨
      (p.toNat % 2 ^ (f.m + 1) = 2 ^ f.m ∧ (window f p).toNat % 2 = 1) := by
  rw [roundBit_eq, sticky_eq, getLsbD_zero_eq, window_toNat]
  exact doRoundUp_iff p.toNat f.m

/-- The top bit of a word splits its values at the middle. -/
theorem topBit_iff {n : Nat} (v : BitVec (n + 1)) : v.getLsbD n = true ↔ 2 ^ n ≤ v.toNat := by
  have hmsb : v.msb = v.getLsbD n := BitVec.msb_eq_getLsbD_last v
  rw [← hmsb, BitVec.msb_eq_decide, decide_eq_true_iff]
  rfl

theorem topBit_eq_false {n : Nat} (v : BitVec (n + 1)) : v.getLsbD n = false ↔ v.toNat < 2 ^ n := by
  rw [← Bool.not_eq_true, topBit_iff, not_le]

/-! ### The increment -/

section increment

variable (f : FloatFormat) (win : BitVec f.sigWidth) (up : Bool) (eIn : Int)

/-- The increment is exact: the sum has a bit for the carry (R107). -/
theorem roundedSum_toNat : (roundedSum f win up).toNat = win.toNat + up.toNat := by
  have hwin : win.toNat < 2 ^ (f.m + 1) := win.isLt
  have hup : up.toNat ≤ 1 := Bool.toNat_le up
  have hpow : 2 ^ (f.m + 2) = 2 * 2 ^ (f.m + 1) := pow_succ' 2 (f.m + 1)
  have hone : 1 ≤ 2 ^ (f.m + 1) := Nat.one_le_two_pow
  have hwide : f.sigWidth ≤ f.m + 2 := by simp only [FloatFormat.sigWidth]; omega
  rw [roundedSum, BitVec.toNat_add, BitVec.toNat_setWidth_of_le hwide, BitVec.toNat_ofNat,
    Nat.mod_eq_of_lt (by omega : up.toNat < 2 ^ (f.m + 2)), Nat.mod_eq_of_lt (by omega)]

theorem roundedSum_le : (roundedSum f win up).toNat ≤ 2 ^ (f.m + 1) := by
  have hwin : win.toNat < 2 ^ (f.m + 1) := win.isLt
  have hup : up.toNat ≤ 1 := Bool.toNat_le up
  rw [roundedSum_toNat]
  omega

/-- A carry is a sum of exactly 2^(m+1) (R108). -/
theorem carry_iff : (roundedSum f win up).getLsbD (f.m + 1) = true ↔ (roundedSum f win up).toNat = 2 ^ (f.m + 1) := by
  rw [topBit_iff]
  have hle := roundedSum_le f win up
  omega

/-- A carry comes only from a window of all ones that rounds up (R108). -/
theorem carry_iff_allOnes :
    (roundedSum f win up).getLsbD (f.m + 1) = true ↔ up = true ∧ win = BitVec.allOnes f.sigWidth := by
  have hwin : win.toNat < 2 ^ (f.m + 1) := win.isLt
  have hones : win = BitVec.allOnes f.sigWidth ↔ win.toNat = 2 ^ (f.m + 1) - 1 := by
    rw [← BitVec.toNat_inj, BitVec.toNat_allOnes]
  rw [carry_iff, roundedSum_toNat, hones]
  cases up <;> simp <;> omega

/-- What the carry step answers (R108): the sum halved, or the sum itself. -/
theorem carryOut_cases :
    ((roundedSum f win up).toNat = 2 ^ (f.m + 1) ∧
      (carryOut f (roundedSum f win up) eIn).rounded.toNat = 2 ^ f.m ∧
      (carryOut f (roundedSum f win up) eIn).e = eIn + 1) ∨
    ((roundedSum f win up).toNat < 2 ^ (f.m + 1) ∧
      (carryOut f (roundedSum f win up) eIn).rounded.toNat = (roundedSum f win up).toNat ∧
      (carryOut f (roundedSum f win up) eIn).e = eIn) := by
  by_cases hcarry : (roundedSum f win up).getLsbD (f.m + 1) = true
  · have hsum := (carry_iff f win up).mp hcarry
    have hhalf : 2 ^ (f.m + 1) / 2 = 2 ^ f.m := by rw [pow_succ]; omega
    have hfits : 2 ^ f.m < 2 ^ (f.m + 1) := Nat.pow_lt_pow_right (by norm_num) (by omega)
    refine .inl ⟨hsum, ?_, by rw [carryOut, if_pos hcarry]⟩
    rw [carryOut, if_pos hcarry, BitVec.extractLsb'_toNat, hsum, Nat.shiftRight_eq_div_pow, pow_one, hhalf,
      Nat.mod_eq_of_lt hfits]
  · have hlt := (topBit_eq_false _).mp (Bool.eq_false_iff.mpr hcarry)
    refine .inr ⟨hlt, ?_, by rw [carryOut, if_neg hcarry]⟩
    rw [carryOut, if_neg hcarry, BitVec.extractLsb'_toNat, Nat.shiftRight_zero, Nat.mod_eq_of_lt hlt]

end increment

/-! ### The final step -/

/-- The all-ones field as an integer. -/
theorem emaxField_cast (f : FloatFormat) : (emaxField f : Int) = 2 ^ f.e - 1 := by
  rw [emaxField_eq, Nat.cast_sub Nat.one_le_two_pow]
  push_cast
  rfl

/-- The final step past the all-ones field: Infinity (R109). -/
theorem extract_finalStep_overflow (f : FloatFormat) (sign : BitVec 1) (eIn : Int) (r : Rounded f)
    (hover : (emaxField f : Int) ≤ r.e) :
    extract f (finalStep f sign eIn r) = ⟨sign, onesField f, 0⟩ := by
  rw [finalStep, if_pos hover, infinityOf, extract_assemble]

/-- The exponent field of the final step below the all-ones field: 1 on a promotion, else the field kept (R109). -/
def keptField (f : FloatFormat) (eIn : Int) (r : Rounded f) : Int :=
  if eIn = 0 ∧ 2 ^ f.m ≤ r.rounded.toNat then 1 else r.e

/-- The fields of the final step below the all-ones field (R109). -/
theorem extract_finalStep_kept (f : FloatFormat) (sign : BitVec 1) (eIn : Int) (r : Rounded f) (hvalid : f.valid = true)
    (hpos : 0 ≤ r.e) (hbelow : r.e < (emaxField f : Int)) :
    (extract f (finalStep f sign eIn r)).sign = sign ∧
    ((extract f (finalStep f sign eIn r)).exponentField.toNat : Int) = keptField f eIn r ∧
    (extract f (finalStep f sign eIn r)).mantissaField.toNat = r.rounded.toNat % 2 ^ f.m := by
  have hmantissa : (r.rounded.extractLsb' 0 f.m).toNat = r.rounded.toNat % 2 ^ f.m := by
    rw [BitVec.extractLsb'_toNat, Nat.shiftRight_zero]
  have hcount := two_pow_e_eq f hvalid
  rcases finalStep_cases f sign eIn r with ⟨hover, -⟩ | ⟨-, hin, htop, hz⟩ | ⟨-, hkept, hz⟩
  · omega
  · rw [hz, extract_assemble, keptField, if_pos ⟨hin, (topBit_iff _).mp htop⟩]
    refine ⟨rfl, ?_, hmantissa⟩
    have hone : (1 : BitVec f.e).toNat = 1 % 2 ^ f.e := rfl
    rw [hone, Nat.mod_eq_of_lt (by omega)]
    rfl
  · rw [hz, extract_assemble, keptField, if_neg (by rwa [← topBit_iff])]
    refine ⟨rfl, ?_, hmantissa⟩
    have hfits : r.e < ((2 ^ f.e : Nat) : Int) := by rw [emaxField_eq] at hbelow; omega
    rw [BitVec.toNat_ofInt, Int.emod_eq_of_lt hpos hfits, Int.toNat_of_nonneg hpos]

/-! ### The statements -/

/-- Settles O23: a value is its quotient and remainder, twice. -/
theorem rounderInputSplitsInThree : Obligations.RounderInputSplitsInThree := by
  intro f p
  refine ⟨?_, by rw [sticky_eq, stickyBits_toNat, decide_eq_true_iff]⟩
  have hround : (roundBit f p).toNat = p.toNat / 2 ^ f.m % 2 := by
    rw [roundBit_eq]
    rcases Nat.mod_two_eq_zero_or_one (p.toNat / 2 ^ f.m) with h | h <;> simp [h]
  calc p.toNat
      = p.toNat / 2 ^ (f.m + 1) * 2 ^ (f.m + 1) + p.toNat % 2 ^ (f.m + 1) := (Nat.div_add_mod' _ _).symm
    _ = _ := by rw [pow_succ, Nat.mod_mul, window_toNat, stickyBits_toNat, hround, pow_succ]; ring

/-- Settles O24: the Rounder's decision on the discarded bits, and the short form. -/
theorem roundsToNearestTiesToEven : Obligations.RoundsToNearestTiesToEven := ⟨doRoundUp_window_iff, doRoundUp_eq⟩

/-- Settles O25: only a window of all ones that rounds up reaches 2^(m+1). -/
theorem carryRestoresTheLeadingBit : Obligations.CarryRestoresTheLeadingBit := by
  intro f win up eIn
  refine ⟨roundedSum_toNat f win up, carry_iff_allOnes f win up, fun h => ?_, fun h => ?_, fun h => ?_⟩
  · have hsum := (carry_iff f win up).mp h
    rcases carryOut_cases f win up eIn with ⟨-, hr⟩ | ⟨hlt, -⟩
    · exact hr
    · exact absurd hsum hlt.ne
  · have hlt := (topBit_eq_false _).mp h
    rcases carryOut_cases f win up eIn with ⟨hsum, -⟩ | ⟨-, hr⟩
    · exact absurd hsum hlt.ne
    · exact hr
  · have hclear := (topBit_eq_false win).mp h
    have hup := Bool.toNat_le up
    rw [topBit_eq_false, roundedSum_toNat, pow_succ]
    omega

/-- Settles O27: below the all-ones field the exponent field is `keptField`, at or past it the result is Infinity. -/
theorem finalStepEncodesTheResult : Obligations.FinalStepEncodesTheResult := by
  intro f sign eIn r hvalid hpos z
  have hmax := emaxField_cast f
  by_cases hover : (emaxField f : Int) ≤ r.e
  · have hz : z = ⟨sign, onesField f, 0⟩ := extract_finalStep_overflow f sign eIn r hover
    exact ⟨by rw [hz], fun _ => by rw [hz]; exact ⟨rfl, rfl⟩, fun h => by omega⟩
  · obtain ⟨hsign, hfield, hmantissa⟩ := extract_finalStep_kept f sign eIn r hvalid hpos (by omega)
    rw [keptField] at hfield
    refine ⟨hsign, fun h => by omega, fun _ => ⟨hmantissa, fun hpromote => ?_, fun hkept => ?_⟩⟩
    · rw [if_pos hpromote] at hfield
      exact_mod_cast hfield
    · rwa [if_neg hkept] at hfield

end Sys2Proof.Machine

/-! What the finite path delivers to the Rounder and what it makes of it (42_subnormal_rounder.md R103 to R111): the
shapes of the two paths, and the rounded significand as a whole number of units in the last place. -/

namespace Sys2Proof.Machine

/-! ### The pair's numbers -/

/-- The exponent of the normalised product of a pair (41_multiplier_normalizer.md R92). -/
def pairExponent (f : FloatFormat) (a b : ExtractedFields f) : Int :=
  normExponent (exponentSum f a b) (product f a b)

/-- The sum that leaves the Rounder's increment: the magnitude of the result in units in the last place (R107). -/
def roundedUnits (f : FloatFormat) (a b : ExtractedFields f) : Nat :=
  (roundingSum f (finiteRounderInput f a b)).toNat

/-- The exponent of the binade in whose units the result is rounded: the pair's own, never below the subnormals'
(R103). -/
def roundingBinade (f : FloatFormat) (a b : ExtractedFields f) : Int := max (emin f) (pairExponent f a b)

/-- The exponent of the unit in the last place of the result (R104). -/
def ulpExponent (f : FloatFormat) (a b : ExtractedFields f) : Int := roundingBinade f a b - (f.m : Int)

/-- How many low bits of the normalised product lie below the round bit, those shifted out included (R102). -/
def bitsBelowRound (f : FloatFormat) (a b : ExtractedFields f) : Nat := (shiftOf f a b).toNat + f.m

/-- Above the subnormals' binade the result is rounded in the pair's own. -/
theorem roundingBinade_eq_pairExponent (f : FloatFormat) (a b : ExtractedFields f)
    (h : emin f < roundingBinade f a b) : roundingBinade f a b = pairExponent f a b := by
  rw [roundingBinade] at *
  omega

theorem shiftOf_eq (f : FloatFormat) (a b : ExtractedFields f) : shiftOf f a b = emin f - pairExponent f a b := rfl

/-- A pair of Subnormal or Normal operands has a nonzero product. -/
theorem product_ne_zero (f : FloatFormat) (a b : ExtractedFields f) (ha : isFiniteNonzero (classify f a) = true)
    (hb : isFiniteNonzero (classify f b) = true) : product f a b ≠ 0 := by
  obtain ⟨-, hnonzeroA⟩ := (isFiniteNonzero_iff _).mp ha
  obtain ⟨-, hnonzeroB⟩ := (isFiniteNonzero_iff _).mp hb
  exact fun hzero => ((product_toNat_eq_zero f a b).mp (by simp [hzero])).elim hnonzeroA hnonzeroB

/-! ### The Rounder's input -/

/-- On both paths `P` is the adjusted product: on the normal path the shift is by nothing. -/
theorem rounderInput_p (f : FloatFormat) (np : BitVec f.prodWidth) (ne : Int) :
    (rounderInput f np ne).p = adjust np (subnormalShift f ne).toNat := by
  rcases rounderInput_cases f np ne with ⟨-, hinput⟩ | ⟨hshift, hinput⟩ <;> rw [hinput]
  rw [Int.toNat_eq_zero.mpr hshift, adjust_zero np (one_le_prodWidth f)]

/-- The exponent field going in, on the two paths (R103). -/
theorem finiteRounderInput_eIn (f : FloatFormat) (a b : ExtractedFields f) :
    (0 < shiftOf f a b ∧ (finiteRounderInput f a b).eIn = 0) ∨
    (shiftOf f a b ≤ 0 ∧ (finiteRounderInput f a b).eIn = pairExponent f a b + (bias f : Int)) := by
  rcases rounderInput_cases f (normProduct (product f a b)) (pairExponent f a b) with ⟨h, hinput⟩ | ⟨h, hinput⟩
  · exact .inl ⟨h, congrArg RounderInput.eIn hinput⟩
  · exact .inr ⟨h, congrArg RounderInput.eIn hinput⟩

section pair

variable (f : FloatFormat) (a b : ExtractedFields f)

/-- The window of a pair is its normalised product without the discarded bits. -/
theorem window_finiteRounderInput :
    (window f (finiteRounderInput f a b).p).toNat =
      (normProduct (product f a b)).toNat / 2 ^ (bitsBelowRound f a b + 1) := by
  rw [finiteRounderInput, rounderInput_p]
  exact window_adjust f _ _

/-- The rounded units of a pair: the normalised product without the discarded bits, rounded up by R106. -/
theorem roundedUnits_eq (hm : 1 ≤ f.m) :
    roundedUnits f a b =
      (normProduct (product f a b)).toNat / 2 ^ (bitsBelowRound f a b + 1) +
      (doRoundUp (decide ((normProduct (product f a b)).toNat / 2 ^ bitsBelowRound f a b % 2 = 1))
        (decide ((normProduct (product f a b)).toNat % 2 ^ bitsBelowRound f a b ≠ 0))
        (decide ((normProduct (product f a b)).toNat / 2 ^ (bitsBelowRound f a b + 1) % 2 = 1))).toNat := by
  have hwindow := window_finiteRounderInput f a b
  rw [roundedUnits, roundingSum, roundedSum_toNat, getLsbD_zero_eq, hwindow, finiteRounderInput, rounderInput_p,
    roundBit_adjust f _ _ hm, sticky_adjust f _ _ hm]
  rfl

theorem roundedUnits_le : roundedUnits f a b ≤ 2 ^ (f.m + 1) := roundedSum_le f _ _

theorem window_le_roundedUnits : (window f (finiteRounderInput f a b).p).toNat ≤ roundedUnits f a b := by
  rw [roundedUnits, roundingSum, roundedSum_toNat]
  exact Nat.le_add_right _ _

theorem roundedUnits_le_window_succ :
    roundedUnits f a b ≤ (window f (finiteRounderInput f a b).p).toNat + 1 := by
  rw [roundedUnits, roundingSum, roundedSum_toNat]
  exact Nat.add_le_add_left (Bool.toNat_le _) _

/-- On the subnormal path at least one zero enters at the top, so the window's top bit is clear (R104). -/
theorem window_lt_of_subnormalPath (hshift : 0 < shiftOf f a b) :
    (window f (finiteRounderInput f a b).p).toNat < 2 ^ f.m := by
  have hbits : (normProduct (product f a b)).toNat < 2 ^ (f.m + (f.m + 2)) := by
    have hwidth : f.prodWidth = f.m + (f.m + 2) := by simp only [FloatFormat.prodWidth]; omega
    exact lt_of_lt_of_eq (normProduct (product f a b)).isLt (congrArg (2 ^ ·) hwidth)
  have hlost : 2 ^ (f.m + 2) ≤ 2 ^ (bitsBelowRound f a b + 1) :=
    Nat.pow_le_pow_right (by norm_num) (by rw [bitsBelowRound]; omega)
  rw [window_finiteRounderInput, Nat.div_lt_iff_lt_mul (by positivity)]
  calc _ < 2 ^ (f.m + (f.m + 2)) := hbits
    _ = 2 ^ f.m * 2 ^ (f.m + 2) := pow_add _ _ _
    _ ≤ _ := Nat.mul_le_mul_left _ hlost

/-- On the normal path the window holds the leading one (R104). -/
theorem le_window_of_normalPath (hproduct : product f a b ≠ 0) (hshift : shiftOf f a b ≤ 0) :
    2 ^ f.m ≤ (window f (finiteRounderInput f a b).p).toNat := by
  have hlead := two_pow_le_normProduct hproduct
  rw [show f.prodWidth - 1 = f.m + (f.m + 1) by simp only [FloatFormat.prodWidth]; omega, pow_add] at hlead
  rw [window_finiteRounderInput, bitsBelowRound, Int.toNat_eq_zero.mpr hshift, Nat.zero_add,
    Nat.le_div_iff_mul_le (by positivity)]
  exact hlead

/-! ### After rounding -/

/-- A carry is a rounded window of exactly 2^(m+1) units (R108). -/
theorem carryOf_iff : carryOf f a b = true ↔ roundedUnits f a b = 2 ^ (f.m + 1) := carry_iff f _ _

/-- Everything the Rounder can make of a nonzero pair (R108, R111): the subnormal path without a carry, the normal path
without one, and the normal path with one. -/
theorem roundedOf_cases (hproduct : product f a b ≠ 0) :
    (0 < shiftOf f a b ∧ roundedUnits f a b ≤ 2 ^ f.m ∧ (finiteRounderInput f a b).eIn = 0 ∧
      (roundedOf f a b).rounded.toNat = roundedUnits f a b ∧ (roundedOf f a b).e = 0) ∨
    (shiftOf f a b ≤ 0 ∧ 2 ^ f.m ≤ roundedUnits f a b ∧ roundedUnits f a b < 2 ^ (f.m + 1) ∧
      (finiteRounderInput f a b).eIn = pairExponent f a b + (bias f : Int) ∧
      (roundedOf f a b).rounded.toNat = roundedUnits f a b ∧
      (roundedOf f a b).e = pairExponent f a b + (bias f : Int)) ∨
    (shiftOf f a b ≤ 0 ∧ roundedUnits f a b = 2 ^ (f.m + 1) ∧
      (finiteRounderInput f a b).eIn = pairExponent f a b + (bias f : Int) ∧
      (roundedOf f a b).rounded.toNat = 2 ^ f.m ∧
      (roundedOf f a b).e = pairExponent f a b + (bias f : Int) + 1) := by
  have hcarry : (roundedUnits f a b = 2 ^ (f.m + 1) ∧ (roundedOf f a b).rounded.toNat = 2 ^ f.m ∧
        (roundedOf f a b).e = (finiteRounderInput f a b).eIn + 1) ∨
      (roundedUnits f a b < 2 ^ (f.m + 1) ∧ (roundedOf f a b).rounded.toNat = roundedUnits f a b ∧
        (roundedOf f a b).e = (finiteRounderInput f a b).eIn) := carryOut_cases f _ _ _
  rcases finiteRounderInput_eIn f a b with ⟨hshift, hin⟩ | ⟨hshift, hin⟩
  · have hunits : roundedUnits f a b ≤ 2 ^ f.m :=
      (roundedUnits_le_window_succ f a b).trans (window_lt_of_subnormalPath f a b hshift)
    have hpow : 2 ^ f.m < 2 ^ (f.m + 1) := Nat.pow_lt_pow_right (by norm_num) (by omega)
    rcases hcarry with ⟨hsum, -⟩ | ⟨-, hrounded, he⟩
    · omega
    · exact .inl ⟨hshift, hunits, hin, hrounded, he.trans hin⟩
  · have hunits := (le_window_of_normalPath f a b hproduct hshift).trans (window_le_roundedUnits f a b)
    rcases hcarry with ⟨hsum, hrounded, he⟩ | ⟨hlt, hrounded, he⟩
    · exact .inr (.inr ⟨hshift, hsum, hin, hrounded, by rw [he, hin]⟩)
    · exact .inr (.inl ⟨hshift, hunits, hlt, hin, hrounded, he.trans hin⟩)

/-- How the Rounder's answer and the exponent field going in are related (R103, R108): field 0 goes with the subnormal
path, and a field above 0 with the implicit bit. -/
theorem roundedOf_shape (hproduct : product f a b ≠ 0) :
    0 ≤ (roundedOf f a b).e ∧ ((finiteRounderInput f a b).eIn = 0 ↔ (roundedOf f a b).e = 0) ∧
    ((roundedOf f a b).e = 0 → (roundedOf f a b).rounded.toNat ≤ 2 ^ f.m) ∧
    (1 ≤ (roundedOf f a b).e → 2 ^ f.m ≤ (roundedOf f a b).rounded.toNat) := by
  have hemin := emin_eq f
  have hshift := shiftOf_eq f a b
  rcases roundedOf_cases f a b hproduct with ⟨-, hunits, hin, hrounded, he⟩ | ⟨hpath, hunits, -, hin, hrounded, he⟩ |
    ⟨hpath, -, hin, hrounded, he⟩ <;> rw [hin, hrounded, he] <;> omega

/-! ### The final step of a pair -/

theorem finitePath_eq :
    finitePath f a b = finalStep f (productSign f a b) (finiteRounderInput f a b).eIn (roundedOf f a b) := rfl

/-- The fields of a result at or past the all-ones exponent field (R109). -/
theorem extract_finitePath_overflow (hover : (emaxField f : Int) ≤ (roundedOf f a b).e) :
    extract f (finitePath f a b) = ⟨productSign f a b, onesField f, 0⟩ := by
  rw [finitePath_eq, extract_finalStep_overflow f _ _ _ hover]

/-- The fields of a result below the all-ones exponent field (R109). -/
theorem extract_finitePath_kept (hvalid : f.valid = true) (hproduct : product f a b ≠ 0)
    (hbelow : (roundedOf f a b).e < (emaxField f : Int)) :
    (extract f (finitePath f a b)).sign = productSign f a b ∧
    ((extract f (finitePath f a b)).exponentField.toNat : Int) =
      keptField f (finiteRounderInput f a b).eIn (roundedOf f a b) ∧
    (extract f (finitePath f a b)).mantissaField.toNat = (roundedOf f a b).rounded.toNat % 2 ^ f.m := by
  rw [finitePath_eq]
  exact extract_finalStep_kept f _ _ _ hvalid (roundedOf_shape f a b hproduct).1 hbelow

/-- The all-ones field in terms of the bias (00_scope.md R7). -/
theorem emaxField_eq_bias (hvalid : f.valid = true) : emaxField f = 2 * bias f + 1 := by
  rw [emaxField_eq, two_pow_e_eq f hvalid]
  rfl

/-- The result's exponent field is all ones just when the Rounder's answer reaches or passes that field (L6). -/
theorem exponentField_finitePath_eq_ones (hvalid : f.valid = true) (hproduct : product f a b ≠ 0) :
    (extract f (finitePath f a b)).exponentField = onesField f ↔ (emaxField f : Int) ≤ (roundedOf f a b).e := by
  by_cases hover : (emaxField f : Int) ≤ (roundedOf f a b).e
  · simp only [extract_finitePath_overflow f a b hover, hover]
  · obtain ⟨-, hfield, -⟩ := extract_finitePath_kept f a b hvalid hproduct (by omega)
    have hbelow : keptField f (finiteRounderInput f a b).eIn (roundedOf f a b) < (emaxField f : Int) := by
      have hbias := one_le_bias f hvalid
      have hmax := emaxField_eq_bias f hvalid
      rw [keptField]
      split_ifs <;> omega
    rw [exponentField_eq_ones, ← emaxField_eq]
    omega

/-- A finite path result is no NaN: an all-ones exponent field comes with mantissa field 0 (L6). -/
theorem isNaN_finitePath (hvalid : f.valid = true) (hproduct : product f a b ≠ 0) :
    isNaN (classify f (extract f (finitePath f a b))) = false := by
  rw [← Bool.not_eq_true, isNaN_classify]
  rintro ⟨-, hones, hmantissa⟩
  have hover := (exponentField_finitePath_eq_ones f a b hvalid hproduct).mp hones
  exact hmantissa (by rw [extract_finitePath_overflow f a b hover])

/-- The sign of a finite path result is the xor of the signs (L7). -/
theorem extract_finitePath_sign (hvalid : f.valid = true) (hproduct : product f a b ≠ 0) :
    (extract f (finitePath f a b)).sign = a.sign ^^^ b.sign := by
  by_cases hover : (emaxField f : Int) ≤ (roundedOf f a b).e
  · rw [extract_finitePath_overflow f a b hover]
    rfl
  · exact (extract_finitePath_kept f a b hvalid hproduct (by omega)).1

/-! ### The laws L1 to L5 -/

theorem lawEInZeroIffSubnormalPath : LawEInZeroIffSubnormalPath f a b := by
  have hemin := emin_eq f
  have hshift := shiftOf_eq f a b
  rcases finiteRounderInput_eIn f a b with ⟨hpath, hin⟩ | ⟨hpath, hin⟩ <;>
    rw [LawEInZeroIffSubnormalPath, hin] <;> omega

theorem lawSubnormalPathShape (hproduct : product f a b ≠ 0) : LawSubnormalPathShape f a b := by
  intro hpath
  have hwindow := window_lt_of_subnormalPath f a b hpath
  have hunits := roundedUnits_le_window_succ f a b
  have hpow : 2 ^ f.m < 2 ^ (f.m + 1) := Nat.pow_lt_pow_right (by norm_num) (by omega)
  obtain ⟨-, hzero, -, -⟩ := roundedOf_shape f a b hproduct
  refine ⟨(topBit_eq_false _).mpr hwindow, ?_, hzero.mp ((lawEInZeroIffSubnormalPath f a b).mpr hpath)⟩
  rw [← Bool.not_eq_true, carryOf_iff]
  omega

theorem lawNormalPathShape (hproduct : product f a b ≠ 0) : LawNormalPathShape f a b := by
  intro hpath
  refine ⟨(topBit_iff _).mpr (le_window_of_normalPath f a b hproduct hpath), (topBit_iff _).mpr ?_⟩
  rcases roundedOf_cases f a b hproduct with ⟨hsub, -⟩ | ⟨-, hunits, -, -, hrounded, -⟩ | ⟨-, -, -, hrounded, -⟩
  · omega
  · exact hunits.trans hrounded.ge
  · exact hrounded.ge

theorem lawCarryGivesTwoPowM (hvalid : f.valid = true) (hproduct : product f a b ≠ 0) :
    LawCarryGivesTwoPowM f a b := by
  intro hcarry
  have hunits := (carryOf_iff f a b).mp hcarry
  have hpow : 2 ^ f.m < 2 ^ (f.m + 1) := Nat.pow_lt_pow_right (by norm_num) (by omega)
  have hrounded : (roundedOf f a b).rounded.toNat = 2 ^ f.m := by
    rcases roundedOf_cases f a b hproduct with ⟨-, hle, -⟩ | ⟨-, -, hlt, -⟩ | ⟨-, -, -, hrounded, -⟩
    · omega
    · omega
    · exact hrounded
  refine ⟨hrounded, ?_⟩
  by_cases hover : (emaxField f : Int) ≤ (roundedOf f a b).e
  · rw [extract_finitePath_overflow f a b hover]
  · obtain ⟨-, -, hmantissa⟩ := extract_finitePath_kept f a b hvalid hproduct (by omega)
    rw [mantissaField_eq_zero, hmantissa, hrounded, Nat.mod_self]

/-- A word is put together from its fields as numbers. -/
theorem extractedFields_eq {f : FloatFormat} {x y : ExtractedFields f} (hsign : x.sign = y.sign)
    (hexp : x.exponentField.toNat = y.exponentField.toNat) (hman : x.mantissaField.toNat = y.mantissaField.toNat) :
    x = y := by
  obtain ⟨s, e, m⟩ := x
  obtain ⟨s', e', m'⟩ := y
  rw [ExtractedFields.mk.injEq]
  exact ⟨hsign, BitVec.eq_of_toNat_eq hexp, BitVec.eq_of_toNat_eq hman⟩

theorem lawPromotionGivesSmallestNormal (hvalid : f.valid = true) (hproduct : product f a b ≠ 0) :
    LawPromotionGivesSmallestNormal f a b := by
  intro hin htop
  obtain ⟨-, hzero, hsmall, -⟩ := roundedOf_shape f a b hproduct
  have he := hzero.mp hin
  have hmin := (topBit_iff _).mp htop
  have hrounded : (roundedOf f a b).rounded.toNat = 2 ^ f.m := le_antisymm (hsmall he) hmin
  have hmax := emaxField_eq_bias f hvalid
  have hcount := two_pow_e_eq f hvalid
  obtain ⟨hsign, hfield, hmantissa⟩ := extract_finitePath_kept f a b hvalid hproduct (by omega)
  have hone : (1 : BitVec f.e).toNat = 1 % 2 ^ f.e := rfl
  rw [keptField, if_pos ⟨hin, hmin⟩] at hfield
  refine extractedFields_eq hsign ?_ ?_
  · rw [hone, Nat.mod_eq_of_lt (by omega)]
    omega
  · rw [hmantissa, hrounded, Nat.mod_self]
    rfl

end pair

/-! ### The statements -/

/-- Settles O26: the five laws, each from the shapes of the two paths. -/
theorem subnormalAndNormalPathShapes : Obligations.SubnormalAndNormalPathShapes := by
  intro f a b hvalid ha hb
  have hproduct := product_ne_zero f a b ha hb
  exact ⟨lawEInZeroIffSubnormalPath f a b, lawSubnormalPathShape f a b hproduct,
    lawNormalPathShape f a b hproduct, lawCarryGivesTwoPowM f a b hvalid hproduct,
    lawPromotionGivesSmallestNormal f a b hvalid hproduct⟩

/-- Settles O28: the exponent field is all ones on overflow alone, which gives Infinity; both ends keep the sign. -/
theorem finitePathIsNeverNaN : Obligations.FinitePathIsNeverNaN := by
  intro f a b hvalid ha hb
  have hproduct := product_ne_zero f a b ha hb
  exact ⟨⟨isNaN_finitePath f a b hvalid hproduct,
    emaxField_cast f ▸ exponentField_finitePath_eq_ones f a b hvalid hproduct⟩,
    extract_finitePath_sign f a b hvalid hproduct⟩

end Sys2Proof.Machine

/-! Correct rounding of the finite path (42_subnormal_rounder.md R111, R113). The exact magnitude, measured in units in the
last place, is rounded to the nearest whole number, ties to even; the result stands for that many units, cut off at the
value of Infinity; and every value the format can represent is a whole number of the same units or lies below the pair's
binade. -/

namespace Sys2Proof.Machine

/-! ### Rounding to the nearest whole number -/

/-- `n` is the whole number nearest to `y`, the even one of two equally near. -/
structure NearestEven (n : Nat) (y : ℚ) : Prop where
  near : |(n : ℚ) - y| ≤ 1 / 2
  tie : |(n : ℚ) - y| = 1 / 2 → Even n

/-- Different whole numbers are at least 1 apart. -/
theorem one_le_abs_sub_of_ne {k n : Nat} (hne : k ≠ n) : (1 : ℚ) ≤ |(k : ℚ) - n| := by
  have hint : (1 : Int) ≤ |(k : Int) - n| := Int.one_le_abs (sub_ne_zero.mpr (by exact_mod_cast hne))
  exact_mod_cast hint

/-- A whole number other than the nearest is at least half a unit away. -/
theorem NearestEven.half_le_of_ne {n k : Nat} {y : ℚ} (h : NearestEven n y) (hne : k ≠ n) : 1 / 2 ≤ |(k : ℚ) - y| := by
  have hapart := one_le_abs_sub_of_ne hne
  have htriangle := abs_sub_le (k : ℚ) y n
  have hnear := h.near
  rw [abs_sub_comm] at hnear
  linarith

/-- No whole number is nearer than the nearest, and another one is as near only in a tie. -/
theorem NearestEven.le {n : Nat} {y : ℚ} (h : NearestEven n y) (k : Nat) :
    |(n : ℚ) - y| ≤ |(k : ℚ) - y| ∧ (k ≠ n → |(k : ℚ) - y| = |(n : ℚ) - y| → Even n) := by
  by_cases hne : k = n
  · exact ⟨by rw [hne], fun habs => absurd hne habs⟩
  · have haway := h.half_le_of_ne hne
    exact ⟨h.near.trans haway, fun _ heq => h.tie (le_antisymm h.near (heq ▸ haway))⟩

/-- The nearest whole number with ties to even is unique: two of them would be neighbours, both even. -/
theorem NearestEven.unique {n k : Nat} {y : ℚ} (hn : NearestEven n y) (hk : NearestEven k y) : n = k := by
  by_contra hne
  have hevenN : Even n := hn.tie (le_antisymm hn.near (hk.half_le_of_ne hne))
  have hevenK : Even k := hk.tie (le_antisymm hk.near (hn.half_le_of_ne (Ne.symm hne)))
  have hnearK := hk.near
  rw [abs_sub_comm] at hnearK
  have hclose : |(n : ℚ) - k| ≤ 1 := by
    have htriangle := abs_sub_le (n : ℚ) y k
    have hnearN := hn.near
    linarith
  have hclose' : |(n : Int) - k| ≤ 1 := by exact_mod_cast hclose
  obtain ⟨i, hi⟩ := hevenN
  obtain ⟨j, hj⟩ := hevenK
  rw [abs_le] at hclose'
  omega

/-- An even number at most half a unit away is the nearest one. -/
theorem NearestEven.eq_even {n k : Nat} {y : ℚ} (h : NearestEven n y) (hk : Even k) (hlow : (k : ℚ) - 1 / 2 ≤ y)
    (hhigh : y ≤ (k : ℚ) + 1 / 2) : n = k :=
  h.unique ⟨abs_le.mpr ⟨by linarith, by linarith⟩, fun _ => hk⟩

/-- Up to an even number `k` is rounded what is at most half a unit above it. -/
theorem NearestEven.le_even_iff {n k : Nat} {y : ℚ} (h : NearestEven n y) (hk : Even k) :
    n ≤ k ↔ y ≤ (k : ℚ) + 1 / 2 := by
  obtain ⟨hlow, hhigh⟩ := abs_le.mp h.near
  refine ⟨fun hle => ?_, fun hy => ?_⟩
  · have hle' : (n : ℚ) ≤ k := by exact_mod_cast hle
    linarith
  · rcases le_or_gt ((k : ℚ) - 1 / 2) y with hnear | hfar
    · exact (h.eq_even hk hnear hy).le
    · have hlt : (n : ℚ) < k := by linarith
      exact_mod_cast hlt.le

/-- Up to an even number `k` or beyond is rounded what is at most half a unit below it. -/
theorem NearestEven.even_le_iff {n k : Nat} {y : ℚ} (h : NearestEven n y) (hk : Even k) :
    k ≤ n ↔ (k : ℚ) - 1 / 2 ≤ y := by
  obtain ⟨hlow, hhigh⟩ := abs_le.mp h.near
  refine ⟨fun hle => ?_, fun hy => ?_⟩
  · have hle' : (k : ℚ) ≤ n := by exact_mod_cast hle
    linarith
  · rcases le_or_gt y ((k : ℚ) + 1 / 2) with hnear | hfar
    · exact (h.eq_even hk hy hnear).ge
    · have hlt : (k : ℚ) < n := by linarith
      exact_mod_cast hlt.le

/-- A quotient `q` with a remainder of `r` out of `2 h` is rounded to the nearest whole number by going up past half, and
at half when `q` is odd. -/
theorem nearestEven_of_remainder (q r h : Nat) (up : Bool) (hh : 0 < h) (hr : r < 2 * h)
    (hup : up = true ↔ h < r ∨ (r = h ∧ q % 2 = 1)) :
    NearestEven (q + up.toNat) ((q : ℚ) + (r : ℚ) / (2 * h)) := by
  have hpos : (0 : ℚ) < 2 * h := by positivity
  have hhalf : 1 / 2 * (2 * (h : ℚ)) = h := by ring
  have hfrac : 0 ≤ (r : ℚ) / (2 * h) ∧ (r : ℚ) / (2 * h) < 1 :=
    ⟨by positivity, (div_lt_one hpos).mpr (by exact_mod_cast hr)⟩
  have hle : (r : ℚ) / (2 * h) ≤ 1 / 2 ↔ r ≤ h := by
    rw [div_le_iff₀ hpos, hhalf, Nat.cast_le]
  have hge : 1 / 2 ≤ (r : ℚ) / (2 * h) ↔ h ≤ r := by
    rw [le_div_iff₀ hpos, hhalf, Nat.cast_le]
  cases up with
  | false =>
    have hdown : r ≤ h ∧ (r = h → Even q) := by
      simp only [Bool.false_eq_true, false_iff, not_or, not_and] at hup
      exact ⟨by omega, fun heq => Nat.even_iff.mpr (by have := hup.2 heq; omega)⟩
    have hdist : |((q + false.toNat : Nat) : ℚ) - (q + (r : ℚ) / (2 * h))| = (r : ℚ) / (2 * h) := by
      rw [Bool.toNat_false, Nat.add_zero, sub_add_cancel_left, abs_neg, abs_of_nonneg hfrac.1]
    refine ⟨by rw [hdist]; exact hle.mpr hdown.1, fun htie => ?_⟩
    rw [hdist] at htie
    exact hdown.2 (le_antisymm hdown.1 (hge.mp htie.ge))
  | true =>
    have hgone : h ≤ r ∧ (r = h → Even (q + 1)) := by
      simp only [true_iff] at hup
      exact ⟨by omega, fun heq => Nat.even_iff.mpr (by omega)⟩
    have hdist : |((q + true.toNat : Nat) : ℚ) - (q + (r : ℚ) / (2 * h))| = 1 - (r : ℚ) / (2 * h) := by
      rw [Bool.toNat_true, Nat.cast_add, Nat.cast_one, add_sub_add_left_eq_sub, abs_of_pos (by linarith [hfrac.2])]
    have hfar := hge.mpr hgone.1
    refine ⟨by rw [hdist]; linarith, fun htie => ?_⟩
    rw [hdist] at htie
    exact hgone.2 (le_antisymm (hle.mp (by linarith)) hgone.1)

/-- Discarding the lowest `d + 1` bits and rounding up by the Rounder's decision gives the nearest whole number (R106). -/
theorem nearestEven_doRoundUp (v d : Nat) :
    NearestEven (v / 2 ^ (d + 1) + (doRoundUp (decide (v / 2 ^ d % 2 = 1)) (decide (v % 2 ^ d ≠ 0))
      (decide (v / 2 ^ (d + 1) % 2 = 1))).toNat) ((v : ℚ) / 2 ^ (d + 1)) := by
  have hrest : v % 2 ^ (d + 1) < 2 * 2 ^ d := by rw [← pow_succ']; exact Nat.mod_lt _ (by positivity)
  have hsplit : (v : ℚ) = ((v / 2 ^ (d + 1) * 2 ^ (d + 1) + v % 2 ^ (d + 1) : Nat) : ℚ) := by rw [Nat.div_add_mod']
  have hvalue : (v : ℚ) / 2 ^ (d + 1) =
      ((v / 2 ^ (d + 1) : Nat) : ℚ) + ((v % 2 ^ (d + 1) : Nat) : ℚ) / (2 * ((2 ^ d : Nat) : ℚ)) := by
    rw [div_eq_iff (by positivity), hsplit]
    push_cast
    field_simp
    ring
  rw [hvalue]
  exact nearestEven_of_remainder _ _ _ _ (by positivity) hrest (doRoundUp_iff v d)

/-! ### The rounded units of a pair -/

section pair

variable (f : FloatFormat) (a b : ExtractedFields f)

/-- The rounded units are the exact magnitude, in units in the last place, rounded to nearest (R102, R106). -/
theorem nearestEven_roundedUnits (hvalid : f.valid = true) (hproduct : product f a b ≠ 0) :
    NearestEven (roundedUnits f a b) (exactMagnitude f a b / 2 ^ ulpExponent f a b) := by
  obtain ⟨hm, -⟩ := (valid_iff f).mp hvalid
  have hexponent : pairExponent f a b - ((f.prodWidth : Int) - 1) =
      ulpExponent f a b - ((bitsBelowRound f a b + 1 : Nat) : Int) := by
    have hshift := shiftOf_eq f a b
    simp only [ulpExponent, roundingBinade, bitsBelowRound, FloatFormat.prodWidth]
    omega
  have hunits : exactMagnitude f a b / 2 ^ ulpExponent f a b =
      ((normProduct (product f a b)).toNat : ℚ) / 2 ^ (bitsBelowRound f a b + 1) := by
    have hexact : exactMagnitude f a b = ((normProduct (product f a b)).toNat : ℚ) *
        2 ^ (pairExponent f a b - ((f.prodWidth : Int) - 1)) := exactMagnitude_eq_normProduct f a b hproduct
    rw [hexact, hexponent, zpow_sub₀ two_ne_zero, zpow_natCast]
    field_simp
  rw [hunits, roundedUnits_eq f a b hm]
  exact nearestEven_doRoundUp _ _

/-- The Rounder's answer, with its own exponent field, stands for the rounded units (R108): a carry halves the one and
increments the other. -/
theorem roundedOf_value (hproduct : product f a b ≠ 0) :
    ((roundedOf f a b).rounded.toNat : ℚ) * 2 ^ (max 1 (roundedOf f a b).e - (bias f : Int) - (f.m : Int)) =
      (roundedUnits f a b : ℚ) * 2 ^ ulpExponent f a b := by
  have hemin := emin_eq f
  have hshift := shiftOf_eq f a b
  rw [ulpExponent, roundingBinade]
  rcases roundedOf_cases f a b hproduct with ⟨hpath, -, -, hrounded, he⟩ | ⟨hpath, -, -, -, hrounded, he⟩ |
    ⟨hpath, hcarry, -, hrounded, he⟩
  · rw [hrounded, he]
    congr 2
    omega
  · rw [hrounded, he]
    congr 2
    omega
  · have hexponent : max 1 (pairExponent f a b + (bias f : Int) + 1) - (bias f : Int) - (f.m : Int) =
        max (emin f) (pairExponent f a b) - (f.m : Int) + 1 := by omega
    rw [hrounded, he, hexponent, hcarry, zpow_add_one₀ two_ne_zero]
    push_cast
    ring

/-- An even number of units leaves an even significand (R108). -/
theorem even_rounded (hm : 1 ≤ f.m) (hproduct : product f a b ≠ 0) (heven : Even (roundedUnits f a b)) :
    Even (roundedOf f a b).rounded.toNat := by
  have hpow : Even (2 ^ f.m) := (Nat.even_pow' (by omega)).mpr even_two
  rcases roundedOf_cases f a b hproduct with ⟨-, -, -, hrounded, -⟩ | ⟨-, -, -, -, hrounded, -⟩ |
    ⟨-, -, -, hrounded, -⟩ <;> rwa [hrounded]

/-! ### What the result stands for -/

/-- The bottom of the binade `s`, in units of a significand of `m` mantissa bits. -/
theorem two_zpow_eq (m : Nat) (s : Int) : (2 : ℚ) ^ s = 2 ^ m * 2 ^ (s - (m : Int)) := by
  rw [← zpow_natCast, ← zpow_add₀ two_ne_zero, add_sub_cancel]

/-- The end of the binade `s`, in the same units. -/
theorem two_zpow_succ_eq (m : Nat) (s : Int) : (2 : ℚ) ^ (s + 1) = 2 ^ (m + 1) * 2 ^ (s - (m : Int)) := by
  rw [zpow_add_one₀ two_ne_zero, two_zpow_eq m s, pow_succ]
  ring

theorem infinityMagnitude_eq : infinityMagnitude f = 2 ^ (f.m + 1) * (2 : ℚ) ^ ((bias f : Int) - (f.m : Int)) :=
  two_zpow_succ_eq f.m (bias f)

/-- The exponent field overflows just when the rounded units reach the value of Infinity (R109, R113). -/
theorem overflow_iff (hvalid : f.valid = true) (hproduct : product f a b ≠ 0) :
    (emaxField f : Int) ≤ (roundedOf f a b).e ↔
      infinityMagnitude f ≤ (roundedUnits f a b : ℚ) * 2 ^ ulpExponent f a b := by
  have hbias := one_le_bias f hvalid
  have hmax := emaxField_eq_bias f hvalid
  obtain ⟨-, -, -, hnormal⟩ := roundedOf_shape f a b hproduct
  rw [← roundedOf_value f a b hproduct]
  constructor
  · intro hover
    have hleading : (2 : ℚ) ^ f.m ≤ (roundedOf f a b).rounded.toNat := by exact_mod_cast hnormal (by omega)
    calc infinityMagnitude f
        = 2 ^ f.m * (2 : ℚ) ^ ((bias f : Int) + 1 - (f.m : Int)) := two_zpow_eq f.m _
      _ ≤ _ := mul_le_mul hleading (zpow_le_zpow_right₀ one_le_two (by omega)) (by positivity) (by positivity)
  · intro hreach
    by_contra hbelow
    have hfits : ((roundedOf f a b).rounded.toNat : ℚ) < 2 ^ (f.m + 1) := by
      exact_mod_cast (roundedOf f a b).rounded.isLt
    have hscale : (2 : ℚ) ^ (max 1 (roundedOf f a b).e - (bias f : Int) - (f.m : Int)) ≤
        2 ^ ((bias f : Int) - (f.m : Int)) := zpow_le_zpow_right₀ one_le_two (by omega)
    refine absurd hreach (not_le.mpr ?_)
    rw [infinityMagnitude_eq]
    exact mul_lt_mul_of_pos_of_nonneg' hfits hscale (by positivity) (by positivity)

theorem classify_finitePath_eq_infinity (hvalid : f.valid = true) (hproduct : product f a b ≠ 0) :
    classify f (extract f (finitePath f a b)) = .infinity ↔ (emaxField f : Int) ≤ (roundedOf f a b).e := by
  rw [← exponentField_finitePath_eq_ones f a b hvalid hproduct, classify_eq_infinity]
  refine ⟨fun h => h.2.1, fun hones => ⟨?_, hones, ?_⟩⟩
  · have hcount := two_pow_e_eq f hvalid
    rw [ne_eq, exponentField_eq_zero, (exponentField_eq_ones f _).mp hones]
    omega
  · rw [extract_finitePath_overflow f a b ((exponentField_finitePath_eq_ones f a b hvalid hproduct).mp hones)]

/-- Below overflow the fields of the result are those of the rounded significand and its exponent field (R109): a
promotion changes no value. -/
theorem magnitude_finitePath (hvalid : f.valid = true) (hproduct : product f a b ≠ 0)
    (hbelow : (roundedOf f a b).e < (emaxField f : Int)) :
    magnitude f (extract f (finitePath f a b)) = (roundedUnits f a b : ℚ) * 2 ^ ulpExponent f a b := by
  obtain ⟨-, hfield, hmantissa⟩ := extract_finitePath_kept f a b hvalid hproduct hbelow
  obtain ⟨hpos, hzero, hsmall, hnormal⟩ := roundedOf_shape f a b hproduct
  have hfits : (roundedOf f a b).rounded.toNat < 2 ^ (f.m + 1) := (roundedOf f a b).rounded.isLt
  have hexponent : max 1 (keptField f (finiteRounderInput f a b).eIn (roundedOf f a b)) =
      max 1 (roundedOf f a b).e := by
    rw [keptField]
    split_ifs <;> omega
  have hsignificand : (mantissaValue f (extract f (finitePath f a b))).toNat = (roundedOf f a b).rounded.toNat := by
    rw [mantissaValue_toNat, hmantissa]
    rw [keptField] at hfield
    by_cases hleading : 2 ^ f.m ≤ (roundedOf f a b).rounded.toNat
    · have hset : (extract f (finitePath f a b)).exponentField.toNat ≠ 0 := by
        split_ifs at hfield <;> omega
      rw [if_neg hset, Nat.mod_eq_sub_mod hleading, Nat.mod_eq_of_lt (by rw [pow_succ] at hfits; omega)]
      omega
    · have hclear : (extract f (finitePath f a b)).exponentField.toNat = 0 := by
        split_ifs at hfield <;> omega
      rw [if_pos hclear, Nat.mod_eq_of_lt (not_le.mp hleading), Nat.zero_add]
  rw [magnitude, hsignificand, exponentValue_eq_max, hfield, hexponent, roundedOf_value f a b hproduct]

/-- The result stands for the rounded units, cut off at the value of Infinity (R109, R113). -/
theorem targetOf_finitePath (hvalid : f.valid = true) (hproduct : product f a b ≠ 0) :
    targetOf f (extract f (finitePath f a b)) =
      min ((roundedUnits f a b : ℚ) * 2 ^ ulpExponent f a b) (infinityMagnitude f) := by
  have hover := overflow_iff f a b hvalid hproduct
  rw [targetOf]
  split_ifs with hclass <;> rw [classify_finitePath_eq_infinity f a b hvalid hproduct] at hclass
  · rw [min_eq_right (hover.mp hclass)]
  · rw [magnitude_finitePath f a b hvalid hproduct (by omega), min_eq_left (le_of_not_ge (mt hover.mpr hclass))]

/-- The mantissa field of the result is even when the number of units is, and on overflow (R113). -/
theorem finitePath_mantissa_even (hvalid : f.valid = true) (hproduct : product f a b ≠ 0)
    (heven : Even (roundedUnits f a b) ∨
      infinityMagnitude f ≤ (roundedUnits f a b : ℚ) * 2 ^ ulpExponent f a b) :
    (extract f (finitePath f a b)).mantissaField.getLsbD 0 = false := by
  obtain ⟨hm, -⟩ := (valid_iff f).mp hvalid
  by_cases hover : (emaxField f : Int) ≤ (roundedOf f a b).e
  · rw [extract_finitePath_overflow f a b hover]
    exact BitVec.getLsbD_zero
  · obtain ⟨-, -, hmantissa⟩ := extract_finitePath_kept f a b hvalid hproduct (by omega)
    have hunits := heven.resolve_right (mt (overflow_iff f a b hvalid hproduct).mpr hover)
    have hrounded := Nat.even_iff.mp (even_rounded f a b hm hproduct hunits)
    rw [getLsbD_zero_eq, hmantissa, Nat.mod_mod_of_dvd _ (dvd_pow_self 2 (by omega)), hrounded]
    rfl

end pair

end Sys2Proof.Machine

/-! The result against the exact magnitude: underflow, overflow, correct rounding and monotonicity
(42_subnormal_rounder.md R111 L8 and L9, R113). -/

namespace Sys2Proof.Machine

/-! ### Underflow and overflow -/

section pair

variable (f : FloatFormat) (a b : ExtractedFields f)

/-- The exact magnitude lies in the binade of its exponent (41_multiplier_normalizer.md R93). -/
theorem exactMagnitude_binade (hproduct : product f a b ≠ 0) :
    (2 : ℚ) ^ pairExponent f a b ≤ exactMagnitude f a b ∧
    exactMagnitude f a b < (2 : ℚ) ^ (pairExponent f a b + 1) := by
  obtain ⟨-, -, -, hlow, hhigh⟩ := normalizedProductIsExact f a b hproduct
  exact ⟨hlow, hhigh⟩

/-- No units are left just when `P` is at most half a unit (L8). -/
theorem roundedUnits_eq_zero : roundedUnits f a b = 0 ↔ (finiteRounderInput f a b).p.toNat ≤ 2 ^ f.m := by
  have hunits : roundedUnits f a b = (window f (finiteRounderInput f a b).p).toNat +
      (doRoundUp (roundBit f (finiteRounderInput f a b).p) (sticky f (finiteRounderInput f a b).p)
        ((window f (finiteRounderInput f a b).p).getLsbD 0)).toNat := by
    rw [roundedUnits, roundingSum, roundedSum_toNat]
  have hup := doRoundUp_window_iff f (finiteRounderInput f a b).p
  have hdouble : 2 ^ (f.m + 1) = 2 * 2 ^ f.m := pow_succ' 2 f.m
  have hpos : 0 < 2 ^ f.m := by positivity
  rw [hunits, Nat.add_eq_zero_iff, Bool.toNat_eq_zero, ← Bool.not_eq_true, hup, window_toNat,
    Nat.div_eq_zero_iff_lt (by positivity)]
  constructor
  · rintro ⟨hwindow, hdown⟩
    rw [Nat.mod_eq_of_lt hwindow] at hdown
    omega
  · intro hle
    have hwindow : (finiteRounderInput f a b).p.toNat < 2 ^ (f.m + 1) := by omega
    rw [Nat.mod_eq_of_lt hwindow, Nat.div_eq_of_lt hwindow]
    omega

theorem infinityMagnitude_pos : 0 < infinityMagnitude f := by
  rw [infinityMagnitude]
  positivity

/-- A finite path result is Zero just when no units are left. -/
theorem classify_finitePath_eq_zero (hvalid : f.valid = true) (hproduct : product f a b ≠ 0) :
    classify f (extract f (finitePath f a b)) = .zero ↔ roundedUnits f a b = 0 := by
  have htarget := targetOf_finitePath f a b hvalid hproduct
  have hinfinity := infinityMagnitude_pos f
  have hulp : (0 : ℚ) < 2 ^ ulpExponent f a b := by positivity
  constructor
  · intro hzero
    rw [targetOf, if_neg (by rw [hzero]; decide), (magnitude_eq_zero f _).mpr hzero] at htarget
    rcases min_choice ((roundedUnits f a b : ℚ) * 2 ^ ulpExponent f a b) (infinityMagnitude f) with h | h
    · rw [h] at htarget
      exact_mod_cast (mul_eq_zero_iff_right hulp.ne').mp htarget.symm
    · rw [h] at htarget
      exact absurd htarget hinfinity.ne
  · intro hunits
    rw [hunits, Nat.cast_zero, zero_mul, min_eq_left hinfinity.le] at htarget
    rw [targetOf] at htarget
    split_ifs at htarget
    · exact absurd htarget hinfinity.ne'
    · exact (magnitude_eq_zero f _).mp htarget

/-- No units are left just when the exact magnitude is at most half the smallest subnormal (L8). -/
theorem roundedUnits_eq_zero_iff_magnitude (hvalid : f.valid = true) (hproduct : product f a b ≠ 0) :
    roundedUnits f a b = 0 ↔ exactMagnitude f a b ≤ (2 : ℚ) ^ (emin f - (f.m : Int) - 1) := by
  have hnear := nearestEven_roundedUnits f a b hvalid hproduct
  have hulp : (0 : ℚ) < 2 ^ ulpExponent f a b := by positivity
  have hhalfUlp : (2 : ℚ) ^ (ulpExponent f a b - 1) = 1 / 2 * 2 ^ ulpExponent f a b := by
    rw [zpow_sub_one₀ two_ne_zero]; ring
  obtain ⟨hlow, -⟩ := exactMagnitude_binade f a b hproduct
  have hhalf : roundedUnits f a b = 0 ↔ exactMagnitude f a b ≤ (2 : ℚ) ^ (ulpExponent f a b - 1) := by
    rw [← Nat.le_zero, hnear.le_even_iff Even.zero, Nat.cast_zero, zero_add, div_le_iff₀ hulp, hhalfUlp]
  rw [hhalf]
  by_cases hpath : pairExponent f a b ≤ emin f
  · rw [ulpExponent, roundingBinade, max_eq_left hpath]
  · have hfar : ∀ i < pairExponent f a b, ¬ exactMagnitude f a b ≤ (2 : ℚ) ^ i := fun i hi =>
      not_le.mpr (lt_of_lt_of_le (zpow_lt_zpow_right₀ one_lt_two hi) hlow)
    rw [ulpExponent, roundingBinade, max_eq_right (by omega)]
    exact iff_of_false (hfar _ (by omega)) (hfar _ (by omega))

/-- The rounded units are at most those of the next binade's bottom. -/
theorem roundedUnits_mul_le :
    (roundedUnits f a b : ℚ) * 2 ^ ulpExponent f a b ≤ 2 ^ (roundingBinade f a b + 1) := by
  have hunits : (roundedUnits f a b : ℚ) ≤ 2 ^ (f.m + 1) := by exact_mod_cast roundedUnits_le f a b
  rw [two_zpow_succ_eq f.m, ulpExponent]
  exact mul_le_mul_of_nonneg_right hunits (by positivity)

/-- On the normal path the rounded units are at least those of the binade's bottom. -/
theorem le_roundedUnits_mul (hproduct : product f a b ≠ 0) (hpath : emin f ≤ pairExponent f a b) :
    (2 : ℚ) ^ roundingBinade f a b ≤ (roundedUnits f a b : ℚ) * 2 ^ ulpExponent f a b := by
  have hshift : shiftOf f a b ≤ 0 := by rw [shiftOf_eq]; omega
  have hunits : (2 : ℚ) ^ f.m ≤ roundedUnits f a b := by
    exact_mod_cast (le_window_of_normalPath f a b hproduct hshift).trans (window_le_roundedUnits f a b)
  rw [two_zpow_eq f.m, ulpExponent]
  exact mul_le_mul_of_nonneg_right hunits (by positivity)

/-- The bounds of the overflow threshold: it lies in the top binade. -/
theorem overflowThreshold_bounds :
    (2 : ℚ) ^ (bias f : Int) ≤ ((2 : ℚ) ^ (f.m + 1) - 1 / 2) * (2 : ℚ) ^ ((bias f : Int) - (f.m : Int)) ∧
    ((2 : ℚ) ^ (f.m + 1) - 1 / 2) * (2 : ℚ) ^ ((bias f : Int) - (f.m : Int)) ≤ infinityMagnitude f := by
  have hone : (1 : ℚ) ≤ 2 ^ f.m := one_le_pow₀ one_le_two
  rw [two_zpow_eq f.m (bias f), infinityMagnitude_eq]
  exact ⟨mul_le_mul_of_nonneg_right (by rw [pow_succ]; linarith) (by positivity),
    mul_le_mul_of_nonneg_right (by linarith) (by positivity)⟩

/-- The rounded units reach the value of Infinity just when the exact magnitude is at least halfway there from the largest
finite value (R113). In the top binade that is rounding to an even number of units, below it neither happens, above it
both do. -/
theorem reaches_infinity_iff (hvalid : f.valid = true) (hproduct : product f a b ≠ 0) :
    infinityMagnitude f ≤ (roundedUnits f a b : ℚ) * 2 ^ ulpExponent f a b ↔
      ((2 : ℚ) ^ (f.m + 1) - 1 / 2) * (2 : ℚ) ^ ((bias f : Int) - (f.m : Int)) ≤ exactMagnitude f a b := by
  have hbias := one_le_bias f hvalid
  have hemin := emin_eq f
  obtain ⟨hlow, hhigh⟩ := exactMagnitude_binade f a b hproduct
  obtain ⟨hthreshold, hthreshold'⟩ := overflowThreshold_bounds f
  have hs : roundingBinade f a b = max (emin f) (pairExponent f a b) := rfl
  rcases lt_trichotomy (roundingBinade f a b) (bias f : Int) with hbinade | hbinade | hbinade
  · refine iff_of_false (not_le.mpr ?_) (not_le.mpr ?_)
    · calc _ ≤ (2 : ℚ) ^ (roundingBinade f a b + 1) := roundedUnits_mul_le f a b
        _ < infinityMagnitude f := zpow_lt_zpow_right₀ one_lt_two (by omega)
    · calc _ < (2 : ℚ) ^ (pairExponent f a b + 1) := hhigh
        _ ≤ 2 ^ (bias f : Int) := zpow_le_zpow_right₀ one_le_two (by omega)
        _ ≤ _ := hthreshold
  · have hulp : (0 : ℚ) < 2 ^ ((bias f : Int) - (f.m : Int)) := by positivity
    have hnear := nearestEven_roundedUnits f a b hvalid hproduct
    rw [ulpExponent, hbinade] at hnear ⊢
    have hround := hnear.even_le_iff ((Nat.even_pow' (Nat.succ_ne_zero f.m)).mpr even_two)
    rw [infinityMagnitude_eq, mul_le_mul_iff_left₀ hulp, ← le_div_iff₀ hulp]
    exact_mod_cast hround
  · refine iff_of_true ?_ ?_
    · calc infinityMagnitude f ≤ (2 : ℚ) ^ roundingBinade f a b := zpow_le_zpow_right₀ one_le_two (by omega)
        _ ≤ _ := le_roundedUnits_mul f a b hproduct (by omega)
    · calc _ ≤ infinityMagnitude f := hthreshold'
        _ ≤ (2 : ℚ) ^ pairExponent f a b := zpow_le_zpow_right₀ one_le_two (by omega)
        _ ≤ _ := hlow

end pair

/-- Settles O29: both conditions say that no unit is left after rounding. -/
theorem underflowToZeroExactly : Obligations.UnderflowToZeroExactly := by
  intro f a b hvalid ha hb
  have hproduct := product_ne_zero f a b ha hb
  have hzero := classify_finitePath_eq_zero f a b hvalid hproduct
  exact ⟨hzero.trans (roundedUnits_eq_zero f a b),
    hzero.trans (roundedUnits_eq_zero_iff_magnitude f a b hvalid hproduct)⟩

/-- Settles O30: overflow is the rounded units reaching the value of Infinity. -/
theorem overflowToInfinityExactly : Obligations.OverflowToInfinityExactly := by
  intro f a b hvalid ha hb
  have hproduct := product_ne_zero f a b ha hb
  exact ((classify_finitePath_eq_infinity f a b hvalid hproduct).trans (overflow_iff f a b hvalid hproduct)).trans
    (reaches_infinity_iff f a b hvalid hproduct)

/-! ### The representable magnitudes -/

section targets

variable (f : FloatFormat)

/-- The magnitude of every finite operand is representable (R113): Zero and Subnormal in the lowest binade's units, Normal
with its implicit bit. -/
theorem representable_magnitude (x : ExtractedFields f) (hvalid : f.valid = true)
    (hfinite : isFinite (classify f x) = true) : Representable f (magnitude f x) := by
  have hmantissa : x.mantissaField.toNat < 2 ^ f.m := x.mantissaField.isLt
  obtain ⟨hlow, hhigh⟩ := exponentValue_range f x hvalid hfinite
  rw [magnitude, mantissaValue_toNat]
  by_cases hzero : x.exponentField.toNat = 0
  · refine .inl ⟨x.mantissaField.toNat, hmantissa, ?_⟩
    rw [if_pos hzero, Nat.zero_add, exponentValue_eq, if_pos hzero, emin_eq]
  · exact .inr ⟨x.mantissaField.toNat, exponentValue f x, hmantissa, hlow, hhigh, by rw [if_neg hzero]⟩

/-- What a pattern other than a NaN stands for is in the extended set (R113). -/
theorem roundingTarget_targetOf (x : ExtractedFields f) (hvalid : f.valid = true)
    (hnan : isNaN (classify f x) = false) : RoundingTarget f (targetOf f x) := by
  rw [targetOf]
  split_ifs with hclass
  · exact .inr rfl
  · refine .inl (representable_magnitude f x hvalid ?_)
    cases h : classify f x <;> simp [h, isNaN, isFinite, isFiniteNonzero] at hclass hnan ⊢

/-- Infinity's value is the largest of the extended set (R113). -/
theorem roundingTarget_le {r : ℚ} (hr : RoundingTarget f r) : r ≤ infinityMagnitude f := by
  have hemin := emin_eq f
  rcases hr with (⟨n, hn, rfl⟩ | ⟨n, q, hn, -, hq, rfl⟩) | rfl
  · have hn' : (n : ℚ) ≤ 2 ^ f.m := by exact_mod_cast hn.le
    calc (n : ℚ) * 2 ^ (emin f - (f.m : Int))
        ≤ 2 ^ f.m * 2 ^ (emin f - (f.m : Int)) := mul_le_mul_of_nonneg_right hn' (by positivity)
      _ = 2 ^ emin f := (two_zpow_eq f.m (emin f)).symm
      _ ≤ infinityMagnitude f := zpow_le_zpow_right₀ one_le_two (by omega)
  · have hn' : ((2 ^ f.m + n : Nat) : ℚ) ≤ 2 ^ (f.m + 1) := by
      exact_mod_cast (by rw [pow_succ]; omega : 2 ^ f.m + n ≤ 2 ^ (f.m + 1))
    calc ((2 ^ f.m + n : Nat) : ℚ) * 2 ^ (q - (f.m : Int))
        ≤ 2 ^ (f.m + 1) * 2 ^ (q - (f.m : Int)) := mul_le_mul_of_nonneg_right hn' (by positivity)
      _ = 2 ^ (q + 1) := (two_zpow_succ_eq f.m q).symm
      _ ≤ infinityMagnitude f := zpow_le_zpow_right₀ one_le_two (by omega)
  · exact le_refl _

/-- A whole number of large units is a whole number of small ones. -/
theorem exists_units_of_le (n : Nat) {t q : Int} (h : t ≤ q) : ∃ k : Nat, (n : ℚ) * 2 ^ q = (k : ℚ) * 2 ^ t := by
  refine ⟨n * 2 ^ (q - t).toNat, ?_⟩
  have hsplit : q = ((q - t).toNat : Int) + t := by omega
  conv_lhs => rw [hsplit, zpow_add₀ two_ne_zero, zpow_natCast, ← mul_assoc]
  push_cast
  rfl

/-- In the units of a binade, the extended set has whole numbers, and below the binade what finer units make (R113). -/
theorem roundingTarget_cases {r : ℚ} (s : Int) (hlow : emin f ≤ s) (hhigh : s ≤ (bias f : Int) + 1)
    (hr : RoundingTarget f r) :
    (∃ k : Nat, r = (k : ℚ) * 2 ^ (s - (f.m : Int))) ∨ (emin f < s ∧ r < 2 ^ s) := by
  rcases hr with (⟨n, hn, rfl⟩ | ⟨n, q, hn, hq, -, rfl⟩) | rfl
  · rcases hlow.eq_or_lt with rfl | hlt
    · exact .inl ⟨n, rfl⟩
    · have hn' : (n : ℚ) < 2 ^ f.m := by exact_mod_cast hn
      refine .inr ⟨hlt, ?_⟩
      calc (n : ℚ) * 2 ^ (emin f - (f.m : Int))
          < 2 ^ f.m * 2 ^ (emin f - (f.m : Int)) := mul_lt_mul_of_pos_right hn' (by positivity)
        _ = 2 ^ emin f := (two_zpow_eq f.m (emin f)).symm
        _ ≤ 2 ^ s := zpow_le_zpow_right₀ one_le_two hlow
  · rcases le_or_gt s q with hle | hlt
    · exact .inl (exists_units_of_le _ (by omega))
    · have hn' : ((2 ^ f.m + n : Nat) : ℚ) < 2 ^ (f.m + 1) := by
        exact_mod_cast (by rw [pow_succ]; omega : 2 ^ f.m + n < 2 ^ (f.m + 1))
      refine .inr ⟨by omega, ?_⟩
      calc ((2 ^ f.m + n : Nat) : ℚ) * 2 ^ (q - (f.m : Int))
          < 2 ^ (f.m + 1) * 2 ^ (q - (f.m : Int)) := mul_lt_mul_of_pos_right hn' (by positivity)
        _ = 2 ^ (q + 1) := (two_zpow_succ_eq f.m q).symm
        _ ≤ 2 ^ s := zpow_le_zpow_right₀ one_le_two (by omega)
  · obtain ⟨k, hk⟩ := exists_units_of_le 1 (show s - (f.m : Int) ≤ (bias f : Int) + 1 by omega)
    exact .inl ⟨k, by rw [infinityMagnitude, ← hk, Nat.cast_one, one_mul]⟩

end targets

/-! ### Correct rounding -/

/-- The nearest whole number of units is the nearest whole multiple of the unit. -/
theorem NearestEven.le_scaled {n : Nat} {x w : ℚ} (hw : 0 < w) (h : NearestEven n (x / w)) (k : Nat) :
    |n * w - x| ≤ |k * w - x| ∧ (k * w ≠ n * w → |k * w - x| = |n * w - x| → Even n) := by
  have hscale : ∀ j : Nat, |j * w - x| = |(j : ℚ) - x / w| * w := fun j => by
    rw [← abs_of_pos hw, ← abs_mul, abs_of_pos hw, sub_mul, div_mul_cancel₀ _ hw.ne']
  obtain ⟨hle, htie⟩ := h.le k
  rw [hscale n, hscale k]
  exact ⟨mul_le_mul_of_nonneg_right hle hw.le,
    fun hne heq => htie (fun hkn => hne (by rw [hkn])) (mul_right_cancel₀ hw.ne' heq)⟩

section pair

variable (f : FloatFormat) (a b : ExtractedFields f)

/-- Up to the top binade the rounded units are the nearest element of the extended set, even in a tie: what is no whole
number of units lies below the binade, further away than its bottom. -/
theorem nearest_roundedUnits (hvalid : f.valid = true) (hproduct : product f a b ≠ 0)
    (hbinade : roundingBinade f a b ≤ (bias f : Int)) {r : ℚ} (hr : RoundingTarget f r) :
    |(roundedUnits f a b : ℚ) * 2 ^ ulpExponent f a b - exactMagnitude f a b| ≤ |r - exactMagnitude f a b| ∧
    (r ≠ (roundedUnits f a b : ℚ) * 2 ^ ulpExponent f a b →
      |r - exactMagnitude f a b| = |(roundedUnits f a b : ℚ) * 2 ^ ulpExponent f a b - exactMagnitude f a b| →
      Even (roundedUnits f a b)) := by
  have hulp : (0 : ℚ) < 2 ^ ulpExponent f a b := by positivity
  have hnear := (nearestEven_roundedUnits f a b hvalid hproduct).le_scaled hulp
  have hlow : emin f ≤ roundingBinade f a b := le_max_left _ _
  rcases roundingTarget_cases f (roundingBinade f a b) hlow (by omega) hr with ⟨k, rfl⟩ | ⟨hnormal, hbelow⟩
  · exact hnear k
  · have hs := roundingBinade_eq_pairExponent f a b hnormal
    obtain ⟨hexact, -⟩ := exactMagnitude_binade f a b hproduct
    rw [← hs] at hexact
    have hbottom : ((2 ^ f.m : Nat) : ℚ) * 2 ^ ulpExponent f a b = 2 ^ roundingBinade f a b := by
      rw [two_zpow_eq f.m (roundingBinade f a b), ulpExponent, Nat.cast_pow, Nat.cast_ofNat]
    obtain ⟨hle, -⟩ := hnear (2 ^ f.m)
    have hfurther : |((2 ^ f.m : Nat) : ℚ) * 2 ^ ulpExponent f a b - exactMagnitude f a b| <
        |r - exactMagnitude f a b| := by
      rw [hbottom, abs_of_nonpos (by linarith), abs_of_neg (by linarith)]
      linarith
    exact ⟨hle.trans hfurther.le, fun _ heq => absurd heq (hle.trans_lt hfurther).ne'⟩

/-- The finite path is correctly rounded (R113). Beyond the top binade the exact magnitude is at least Infinity's value,
which is the largest of the extended set. -/
theorem correctlyRounded_finitePath (hvalid : f.valid = true) (hproduct : product f a b ≠ 0) :
    CorrectlyRounded f (exactMagnitude f a b) (extract f (finitePath f a b)) := by
  have hnan := isNaN_finitePath f a b hvalid hproduct
  have htarget := targetOf_finitePath f a b hvalid hproduct
  refine ⟨hnan, roundingTarget_targetOf f _ hvalid hnan, fun r hr => ?_⟩
  rcases le_or_gt (roundingBinade f a b) (bias f : Int) with hbinade | hbinade
  · have hfits : (roundedUnits f a b : ℚ) * 2 ^ ulpExponent f a b ≤ infinityMagnitude f :=
      (roundedUnits_mul_le f a b).trans (zpow_le_zpow_right₀ one_le_two (by omega))
    rw [htarget, min_eq_left hfits]
    obtain ⟨hle, htie⟩ := nearest_roundedUnits f a b hvalid hproduct hbinade hr
    exact ⟨hle, fun hne heq => finitePath_mantissa_even f a b hvalid hproduct (.inl (htie hne heq))⟩
  · have hemin := emin_eq f
    have hbias := one_le_bias f hvalid
    have hs := roundingBinade_eq_pairExponent f a b (by omega)
    obtain ⟨hexact, -⟩ := exactMagnitude_binade f a b hproduct
    have hpast : infinityMagnitude f ≤ exactMagnitude f a b :=
      (zpow_le_zpow_right₀ one_le_two (by omega)).trans hexact
    have hreach := (reaches_infinity_iff f a b hvalid hproduct).mpr ((overflowThreshold_bounds f).2.trans hpast)
    rw [htarget, min_eq_right hreach]
    have hle := roundingTarget_le f hr
    refine ⟨?_, fun _ _ => finitePath_mantissa_even f a b hvalid hproduct (.inr hreach)⟩
    rw [abs_of_nonpos (by linarith), abs_of_nonpos (by linarith)]
    linarith

end pair

/-! ### The operation on finite operands -/

/-- A finite class is neither a NaN's nor Infinity. -/
theorem not_special_of_isFinite (c : Classification) (h : isFinite c = true) : isNaN c = false ∧ isInf c = false := by
  cases c <;> simp_all [isFinite, isFiniteNonzero, isNaN, isInf]

section operation

variable (f : FloatFormat) (a b : BitVec f.width)

/-- What `multiply` answers to finite operands (43_result_assembler.md R126, R127): Zero for a Zero operand, else the finite
path of a nonzero product. -/
theorem multiply_finite_cases (ha : isFinite (classify f (extract f a)) = true)
    (hb : isFinite (classify f (extract f b)) = true) :
    ((classify f (extract f a) = .zero ∨ classify f (extract f b) = .zero) ∧
      extract f (multiply f a b) = ⟨(extract f a).sign ^^^ (extract f b).sign, 0, 0⟩) ∨
    (product f (extract f a) (extract f b) ≠ 0 ∧
      multiply f a b = finitePath f (extract f a) (extract f b)) := by
  obtain ⟨hnanA, hinfA⟩ := not_special_of_isFinite _ ha
  obtain ⟨hnanB, hinfB⟩ := not_special_of_isFinite _ hb
  have hzero : (isZero (classify f (extract f a)) || isZero (classify f (extract f b))) = true ↔
      classify f (extract f a) = .zero ∨ classify f (extract f b) = .zero := by simp [isZero]
  have hresolve : multiply f a b =
      if isZero (classify f (extract f a)) || isZero (classify f (extract f b)) then
        zeroOf f ((extract f a).sign ^^^ (extract f b).sign)
      else finitePath f (extract f a) (extract f b) := by
    simp [multiply, resolve, hnanA, hinfA, hnanB, hinfB]
  by_cases h : classify f (extract f a) = .zero ∨ classify f (extract f b) = .zero
  · rw [if_pos (hzero.mpr h)] at hresolve
    exact .inl ⟨h, by rw [hresolve, zeroOf, extract_assemble]⟩
  · rw [if_neg (mt hzero.mp h)] at hresolve
    exact .inr ⟨fun hproduct => h ((product_toNat_eq_zero f _ _).mp (by rw [hproduct]; rfl)), hresolve⟩

/-- The exact magnitude of a pair with a Zero operand is 0. -/
theorem exactMagnitude_eq_zero (x y : ExtractedFields f) (h : classify f x = .zero ∨ classify f y = .zero) :
    exactMagnitude f x y = 0 := by
  rw [exactMagnitude, mul_eq_zero, magnitude_eq_zero, magnitude_eq_zero]
  exact h

theorem classify_zeroFields (s : BitVec 1) : classify f ⟨s, 0, 0⟩ = .zero := (classify_eq_zero f _).mpr ⟨rfl, rfl⟩

theorem targetOf_zeroFields (s : BitVec 1) : targetOf f ⟨s, 0, 0⟩ = 0 := by
  rw [targetOf, classify_zeroFields, if_neg (by decide), magnitude_eq_zero, classify_zeroFields]

/-- Zero is the correct rounding of 0 (R113). -/
theorem correctlyRounded_zeroFields (s : BitVec 1) (hvalid : f.valid = true) : CorrectlyRounded f 0 ⟨s, 0, 0⟩ := by
  have hnan : isNaN (classify f (⟨s, 0, 0⟩ : ExtractedFields f)) = false := by rw [classify_zeroFields]; rfl
  refine ⟨hnan, roundingTarget_targetOf f _ hvalid hnan, fun r _ => ?_⟩
  rw [targetOf_zeroFields, sub_zero, abs_zero]
  exact ⟨abs_nonneg _, fun _ _ => BitVec.getLsbD_zero⟩

theorem correctlyRounded_multiply (hvalid : f.valid = true) (ha : isFinite (classify f (extract f a)) = true)
    (hb : isFinite (classify f (extract f b)) = true) :
    CorrectlyRounded f (exactMagnitude f (extract f a) (extract f b)) (extract f (multiply f a b)) := by
  rcases multiply_finite_cases f a b ha hb with ⟨hzero, hz⟩ | ⟨hproduct, hz⟩
  · rw [hz, exactMagnitude_eq_zero f _ _ hzero]
    exact correctlyRounded_zeroFields f _ hvalid
  · rw [hz]
    exact correctlyRounded_finitePath f _ _ hvalid hproduct

end operation

/-- Settles O31: a Zero operand gives Zero, and the finite path is correctly rounded; both take the xor of the signs. -/
theorem multiplyIsCorrectlyRounded : Obligations.MultiplyIsCorrectlyRounded := by
  intro f a b hvalid ha hb
  refine ⟨?_, correctlyRounded_multiply f a b hvalid ha hb⟩
  rcases multiply_finite_cases f a b ha hb with ⟨-, hz⟩ | ⟨hproduct, hz⟩
  · rw [hz]
  · rw [hz]
    exact extract_finitePath_sign f _ _ hvalid hproduct

/-! ### Monotonicity -/

/-- A value lies in one binade only. -/
theorem binade_unique {x : ℚ} {i j : Int} (hi : (2 : ℚ) ^ i ≤ x ∧ x < 2 ^ (i + 1))
    (hj : (2 : ℚ) ^ j ≤ x ∧ x < 2 ^ (j + 1)) : i = j := by
  have hij := (zpow_lt_zpow_iff_right₀ (one_lt_two (α := ℚ))).mp (hi.1.trans_lt hj.2)
  have hji := (zpow_lt_zpow_iff_right₀ (one_lt_two (α := ℚ))).mp (hj.1.trans_lt hi.2)
  omega

/-- What a finite path result stands for depends on the exact magnitude only. -/
theorem targetOf_finitePath_congr (f : FloatFormat) (a b c d : ExtractedFields f) (hvalid : f.valid = true)
    (hab : product f a b ≠ 0) (hcd : product f c d ≠ 0) (heq : exactMagnitude f a b = exactMagnitude f c d) :
    targetOf f (extract f (finitePath f a b)) = targetOf f (extract f (finitePath f c d)) := by
  have hexponent : pairExponent f a b = pairExponent f c d :=
    binade_unique (exactMagnitude_binade f a b hab) (heq ▸ exactMagnitude_binade f c d hcd)
  have hulp : ulpExponent f a b = ulpExponent f c d := by
    rw [ulpExponent, ulpExponent, roundingBinade, roundingBinade, hexponent]
  have hnear := nearestEven_roundedUnits f a b hvalid hab
  rw [heq, hulp] at hnear
  have hunits : roundedUnits f a b = roundedUnits f c d := hnear.unique (nearestEven_roundedUnits f c d hvalid hcd)
  rw [targetOf_finitePath f a b hvalid hab, targetOf_finitePath f c d hvalid hcd, hunits, hulp]

theorem exactMagnitude_pos (f : FloatFormat) (a b : ExtractedFields f) (hproduct : product f a b ≠ 0) :
    0 < exactMagnitude f a b := lt_of_lt_of_le (by positivity) (exactMagnitude_binade f a b hproduct).1

/-- What the product of finite operands stands for depends on the exact magnitude only. -/
theorem targetOf_multiply_congr (f : FloatFormat) (a b c d : BitVec f.width) (hvalid : f.valid = true)
    (ha : isFinite (classify f (extract f a)) = true) (hb : isFinite (classify f (extract f b)) = true)
    (hc : isFinite (classify f (extract f c)) = true) (hd : isFinite (classify f (extract f d)) = true)
    (heq : exactMagnitude f (extract f a) (extract f b) = exactMagnitude f (extract f c) (extract f d)) :
    targetOf f (extract f (multiply f a b)) = targetOf f (extract f (multiply f c d)) := by
  rcases multiply_finite_cases f a b ha hb with ⟨hzeroAB, hzAB⟩ | ⟨hab, hzAB⟩ <;>
    rcases multiply_finite_cases f c d hc hd with ⟨hzeroCD, hzCD⟩ | ⟨hcd, hzCD⟩ <;> rw [hzAB, hzCD]
  · rw [targetOf_zeroFields, targetOf_zeroFields]
  · exact absurd ((exactMagnitude_eq_zero f _ _ hzeroAB).symm.trans heq) (exactMagnitude_pos f _ _ hcd).ne
  · exact absurd (heq.trans (exactMagnitude_eq_zero f _ _ hzeroCD)) (exactMagnitude_pos f _ _ hab).ne'
  · exact targetOf_finitePath_congr f _ _ _ _ hvalid hab hcd heq

/-- Nearest elements of one set are in the order of the values they are nearest to, where these differ. -/
theorem nearest_le_of_lt {p q t u : ℚ} (hlt : p < q) (ht : |t - p| ≤ |u - p|) (hu : |u - q| ≤ |t - q|) : t ≤ u := by
  rw [← sq_le_sq] at ht hu
  have hscaled : t * (q - p) ≤ u * (q - p) := by linarith
  exact le_of_mul_le_mul_right hscaled (sub_pos.mpr hlt)

/-- Settles O32: unequal exact magnitudes have nearest elements in their order, equal ones the same element. -/
theorem roundingIsMonotone : Obligations.RoundingIsMonotone := by
  intro f a b c d hvalid ha hb hc hd hle
  obtain ⟨-, htargetAB, hnearestAB⟩ := correctlyRounded_multiply f a b hvalid ha hb
  obtain ⟨-, htargetCD, hnearestCD⟩ := correctlyRounded_multiply f c d hvalid hc hd
  rcases hle.eq_or_lt with heq | hlt
  · exact (targetOf_multiply_congr f a b c d hvalid ha hb hc hd heq).le
  · exact nearest_le_of_lt hlt (hnearestAB _ htargetCD).1 (hnearestCD _ htargetAB).1

end Sys2Proof.Machine

/-! The ResultAssembler (43_result_assembler.md R120 to R129): the fields of the special results, one rule per branch of
the decision, and what follows for `multiply`: signs, NaNs, commutativity and multiplying by +1.0. -/

namespace Sys2Proof.Machine

/-! ### The results of the special branches -/

section results

variable (f : FloatFormat) (x : ExtractedFields f) (sign : BitVec 1)

@[simp] theorem extract_quiet :
    extract f (quiet f x) = ⟨x.sign, onesField f, x.mantissaField ||| BitVec.twoPow f.m (f.m - 1)⟩ :=
  extract_assemble f _

@[simp] theorem extract_infinityOf : extract f (infinityOf f sign) = ⟨sign, onesField f, 0⟩ := extract_assemble f _

@[simp] theorem extract_zeroOf : extract f (zeroOf f sign) = ⟨sign, 0, 0⟩ := extract_assemble f _

/-- The canonical quiet NaN is what quieting makes of positive fields without a payload (30_encoding.md R55). -/
theorem canonicalQNaN_eq_quiet : canonicalQNaN f = quiet f ⟨0, onesField f, 0⟩ := by
  simp [canonicalQNaN, quiet]

/-- In a valid format the all-ones exponent field is not zero. -/
theorem onesField_ne_zero (hvalid : f.valid = true) : onesField f ≠ 0 := by
  have hcount := two_pow_e_eq f hvalid
  intro hzero
  have hnat : 2 ^ f.e - 1 = 0 := by rw [← BitVec.toNat_allOnes, ← onesField, hzero]; rfl
  omega

/-- The bits of a quieted mantissa field: the operand's, with the quiet bit set (R123). -/
theorem quietedMantissa_bit (hvalid : f.valid = true) (i : Nat) :
    (x.mantissaField ||| BitVec.twoPow f.m (f.m - 1)).getLsbD i =
      (x.mantissaField.getLsbD i || decide (f.m - 1 = i)) := by
  obtain ⟨hm, -⟩ := (valid_iff f).mp hvalid
  rw [BitVec.getLsbD_or, BitVec.getLsbD_twoPow, decide_eq_true (by omega : f.m - 1 < f.m), Bool.true_and]

/-- What quieting keeps and what it forces (R123). -/
theorem quiet_fields (hvalid : f.valid = true) :
    (extract f (quiet f x)).sign = x.sign ∧ (extract f (quiet f x)).exponentField = onesField f ∧
    (extract f (quiet f x)).mantissaField.getLsbD (f.m - 1) = true ∧
    ∀ i, i < f.m - 1 → (extract f (quiet f x)).mantissaField.getLsbD i = x.mantissaField.getLsbD i := by
  have hbit := quietedMantissa_bit f x hvalid
  rw [extract_quiet]
  refine ⟨rfl, rfl, ?_, fun i hi => ?_⟩
  · rw [hbit, decide_eq_true rfl, Bool.or_true]
  · rw [hbit, decide_eq_false (by omega), Bool.or_false]

theorem classify_quiet (hvalid : f.valid = true) : classify f (extract f (quiet f x)) = .quietNaN := by
  obtain ⟨-, hones, hbit, -⟩ := quiet_fields f x hvalid
  rw [classify_eq_quietNaN]
  refine ⟨hones ▸ onesField_ne_zero f hvalid, hones, fun hzero => ?_, hbit⟩
  rw [hzero] at hbit
  exact absurd hbit (by simp)

theorem classify_infinityOf (hvalid : f.valid = true) : classify f (extract f (infinityOf f sign)) = .infinity := by
  rw [extract_infinityOf, classify_eq_infinity]
  exact ⟨onesField_ne_zero f hvalid, rfl, rfl⟩

theorem classify_zeroOf : classify f (extract f (zeroOf f sign)) = .zero := by
  rw [extract_zeroOf, classify_zeroFields]

/-- Quieting the fields of a QuietNaN sets a bit that is set. -/
theorem quiet_of_quietNaN (hvalid : f.valid = true) (hquiet : classify f x = .quietNaN) : quiet f x = assemble f x := by
  obtain ⟨-, hones, -, hbit⟩ := (classify_eq_quietNaN f x).mp hquiet
  have hmantissa : x.mantissaField ||| BitVec.twoPow f.m (f.m - 1) = x.mantissaField := by
    apply BitVec.eq_of_getLsbD_eq
    intro i _
    rw [quietedMantissa_bit f x hvalid]
    by_cases hi : f.m - 1 = i
    · rw [← hi, hbit, Bool.true_or]
    · rw [decide_eq_false hi, Bool.or_false]
  rw [quiet, hmantissa, ← hones]

/-- A bit set in the mantissa field is the same bit set in the word (R71). -/
theorem assemble_setMantissaBit (s : BitVec 1) (e : BitVec f.e) (u : BitVec f.m) (j : Nat) (hj : j < f.m) :
    assemble f ⟨s, e, u ||| BitVec.twoPow f.m j⟩ = assemble f ⟨s, e, u⟩ ||| BitVec.twoPow f.width j := by
  have hwidth : j < f.width := by simp only [FloatFormat.width]; omega
  apply BitVec.eq_of_getLsbD_eq
  intro i _
  rw [BitVec.getLsbD_or, assemble_bit, assemble_bit, BitVec.getLsbD_twoPow, decide_eq_true hwidth, Bool.true_and]
  by_cases hi : i < f.m
  · rw [if_pos hi, if_pos hi, BitVec.getLsbD_or, BitVec.getLsbD_twoPow, decide_eq_true hj, Bool.true_and]
  · rw [if_neg hi, if_neg hi, decide_eq_false (by omega : ¬j = i), Bool.or_false]

/-- Quieting a NaN sets the quiet bit of the word and no other (R123). -/
theorem quiet_of_isNaN (v : BitVec f.width) (hvalid : f.valid = true)
    (hnan : isNaN (classify f (extract f v)) = true) :
    quiet f (extract f v) = v ||| BitVec.twoPow f.width (f.m - 1) := by
  obtain ⟨hm, -⟩ := (valid_iff f).mp hvalid
  obtain ⟨-, hones, -⟩ := (isNaN_classify f _).mp hnan
  conv_rhs => rw [← assemble_extract f v]
  rw [quiet, assemble_setMantissaBit f _ _ _ _ (by omega), ← hones]

/-- The canonical quiet NaN as a number (30_encoding.md R55). -/
theorem canonicalQNaN_toNat (hvalid : f.valid = true) :
    (canonicalQNaN f).toNat = (2 ^ f.e - 1) * 2 ^ f.m + 2 ^ (f.m - 1) := by
  obtain ⟨hm, -⟩ := (valid_iff f).mp hvalid
  have hquietBit : 2 ^ (f.m - 1) < 2 ^ f.m := Nat.pow_lt_pow_right (by norm_num) (by omega)
  rw [canonicalQNaN, assemble_toNat, BitVec.toNat_twoPow, Nat.mod_eq_of_lt hquietBit, onesField, BitVec.toNat_allOnes]
  simp

end results

/-! ### The decision, branch by branch -/

/-- The classes of zero times infinity, in either order (R124): of the pairs without a NaN, the one whose product is a
NaN. -/
abbrev ZeroTimesInfinity (c d : Classification) : Prop :=
  (c = .zero ∧ d = .infinity) ∨ (c = .infinity ∧ d = .zero)

theorem ZeroTimesInfinity.symm {c d : Classification} (h : ZeroTimesInfinity c d) : ZeroTimesInfinity d c := by
  rcases h with ⟨hc, hd⟩ | ⟨hc, hd⟩
  · exact .inr ⟨hd, hc⟩
  · exact .inl ⟨hd, hc⟩

section decision

variable (f : FloatFormat) (x y : ExtractedFields f)

/-- Branch 1 (R121). -/
theorem resolve_of_nan_first (hx : isNaN (classify f x) = true) : resolve f x y = quiet f x := by
  simp [resolve, hx]

/-- Branch 2 (R122). -/
theorem resolve_of_nan_second (hx : isNaN (classify f x) = false) (hy : isNaN (classify f y) = true) :
    resolve f x y = quiet f y := by
  simp [resolve, hx, hy]

/-- Branch 3 (R124). -/
theorem resolve_of_zero_infinity (h : ZeroTimesInfinity (classify f x) (classify f y)) :
    resolve f x y = canonicalQNaN f := by
  rcases h with ⟨hx, hy⟩ | ⟨hx, hy⟩ <;> simp [resolve, hx, hy, isNaN, isZero, isInf]

/-- Branch 4 (R125). -/
theorem resolve_of_infinity (hx : isNaN (classify f x) = false) (hy : isNaN (classify f y) = false)
    (hx0 : classify f x ≠ .zero) (hy0 : classify f y ≠ .zero)
    (h : classify f x = .infinity ∨ classify f y = .infinity) :
    resolve f x y = infinityOf f (x.sign ^^^ y.sign) := by
  simp [resolve, hx, hy, isZero, isInf, hx0, hy0, h]

/-- Branch 5 (R126). -/
theorem resolve_of_zero (hx : isFinite (classify f x) = true) (hy : isFinite (classify f y) = true)
    (h : classify f x = .zero ∨ classify f y = .zero) : resolve f x y = zeroOf f (x.sign ^^^ y.sign) := by
  obtain ⟨hnanX, hinfX⟩ := not_special_of_isFinite _ hx
  obtain ⟨hnanY, hinfY⟩ := not_special_of_isFinite _ hy
  simp [resolve, hnanX, hinfX, hnanY, hinfY, isZero, h]

/-- Branch 6 (R127). -/
theorem resolve_of_finiteNonzero (hx : isFiniteNonzero (classify f x) = true)
    (hy : isFiniteNonzero (classify f y) = true) : resolve f x y = finitePath f x y := by
  obtain ⟨hfiniteX, hx0⟩ := (isFiniteNonzero_iff _).mp hx
  obtain ⟨hfiniteY, hy0⟩ := (isFiniteNonzero_iff _).mp hy
  obtain ⟨hnanX, hinfX⟩ := not_special_of_isFinite _ hfiniteX
  obtain ⟨hnanY, hinfY⟩ := not_special_of_isFinite _ hfiniteY
  simp [resolve, hnanX, hinfX, hnanY, hinfY, isZero, hx0, hy0]

/-- When each branch of the table answers: the first condition that matches, in the order of R121 to R127. -/
theorem decisionBranch_cases (c d : Classification) :
    (decisionBranch c d = 1 ∧ isNaN c = true) ∨
    (decisionBranch c d = 2 ∧ isNaN c = false ∧ isNaN d = true) ∨
    (decisionBranch c d = 3 ∧ ZeroTimesInfinity c d) ∨
    (decisionBranch c d = 4 ∧ isNaN c = false ∧ isNaN d = false ∧ c ≠ .zero ∧ d ≠ .zero ∧
      (c = .infinity ∨ d = .infinity)) ∨
    (decisionBranch c d = 5 ∧ isFinite c = true ∧ isFinite d = true ∧ (c = .zero ∨ d = .zero)) ∨
    (decisionBranch c d = 6 ∧ isFiniteNonzero c = true ∧ isFiniteNonzero d = true) := by
  cases c <;> cases d <;> decide

/-- A result of the branches 4 to 6 is no NaN, and its sign is the xor of the signs (R129). -/
theorem resolve_not_nan (hvalid : f.valid = true) (hx : isNaN (classify f x) = false)
    (hy : isNaN (classify f y) = false) (h : ¬ZeroTimesInfinity (classify f x) (classify f y)) :
    isNaN (classify f (extract f (resolve f x y))) = false ∧
    (extract f (resolve f x y)).sign = x.sign ^^^ y.sign := by
  rcases decisionBranch_cases (classify f x) (classify f y) with ⟨-, hnan⟩ | ⟨-, -, hnan⟩ | ⟨-, hinvalid⟩ |
    ⟨-, -, -, hx0, hy0, hinf⟩ | ⟨-, hfinX, hfinY, hzero⟩ | ⟨-, hfinX, hfinY⟩
  · exact absurd hnan (by simp [hx])
  · exact absurd hnan (by simp [hy])
  · exact absurd hinvalid h
  · rw [resolve_of_infinity f x y hx hy hx0 hy0 hinf, classify_infinityOf f _ hvalid, extract_infinityOf]
    exact ⟨rfl, rfl⟩
  · rw [resolve_of_zero f x y hfinX hfinY hzero, classify_zeroOf, extract_zeroOf]
    exact ⟨rfl, rfl⟩
  · have hproduct := product_ne_zero f x y hfinX hfinY
    rw [resolve_of_finiteNonzero f x y hfinX hfinY]
    exact ⟨isNaN_finitePath f x y hvalid hproduct, extract_finitePath_sign f x y hvalid hproduct⟩

/-- A result of the branches 1 to 3 is a QuietNaN (R129). -/
theorem classify_resolve_nan (hvalid : f.valid = true)
    (h : isNaN (classify f x) = true ∨ isNaN (classify f y) = true ∨
      ZeroTimesInfinity (classify f x) (classify f y)) :
    classify f (extract f (resolve f x y)) = .quietNaN := by
  by_cases hx : isNaN (classify f x) = true
  · rw [resolve_of_nan_first f x y hx, classify_quiet f x hvalid]
  · rcases h.resolve_left hx with hy | hinvalid
    · rw [resolve_of_nan_second f x y (Bool.eq_false_iff.mpr hx) hy, classify_quiet f y hvalid]
    · rw [resolve_of_zero_infinity f x y hinvalid, canonicalQNaN_eq_quiet, classify_quiet f _ hvalid]

/-- The finite path takes its operands in either order: signs, significands and exponent values are combined by operations
that commute. -/
theorem finitePath_comm : finitePath f x y = finitePath f y x := by
  have hproduct : product f x y = product f y x := BitVec.mul_comm _ _
  have hexponent : exponentSum f x y = exponentSum f y x := Int.add_comm _ _
  have hsign : productSign f x y = productSign f y x := BitVec.xor_comm _ _
  rw [finitePath, finitePath, finiteRounderInput, finiteRounderInput, hproduct, hexponent, hsign]

end decision

/-! ### The operand +1.0 -/

section one

variable (f : FloatFormat)

/-- +1.0 (30_encoding.md R54). -/
def oneFields : ExtractedFields f := ⟨0, BitVec.ofNat f.e (bias f), 0⟩

variable (hvalid : f.valid = true)
include hvalid

theorem oneFields_exponentField : (oneFields f).exponentField.toNat = bias f := by
  have hcount := two_pow_e_eq f hvalid
  rw [oneFields, BitVec.toNat_ofNat, Nat.mod_eq_of_lt (by omega)]

theorem classify_oneFields : classify f (oneFields f) = .normal := by
  have hfield := oneFields_exponentField f hvalid
  have hcount := two_pow_e_eq f hvalid
  have hbias := one_le_bias f hvalid
  rw [classify_eq_normal, ne_eq, ne_eq, exponentField_eq_zero, exponentField_eq_ones]
  omega

theorem magnitude_oneFields : magnitude f (oneFields f) = 1 := by
  have hfield := oneFields_exponentField f hvalid
  have hbias := one_le_bias f hvalid
  have hsignificand : (mantissaValue f (oneFields f)).toNat = 2 ^ f.m := by
    rw [mantissaValue_toNat, if_neg (by omega)]
    rfl
  have hexponent : exponentValue f (oneFields f) = 0 := by
    rw [exponentValue_eq_max, hfield]
    omega
  rw [magnitude, hsignificand, hexponent, Nat.cast_pow, Nat.cast_ofNat, ← two_zpow_eq, zpow_zero]

end one

/-! ### Patterns by their magnitude -/

section magnitude

variable (f : FloatFormat) (x y : ExtractedFields f)

/-- Below which power of two a magnitude lies, by its exponent field (30_encoding.md R52). -/
theorem magnitude_lt_two_zpow : magnitude f x < 2 ^ ((x.exponentField.toNat : Int) - (bias f : Int) + 1) := by
  have hmantissa : x.mantissaField.toNat < 2 ^ f.m := x.mantissaField.isLt
  rw [magnitude, exponentValue_eq_max, mantissaValue_toNat]
  by_cases hfield : x.exponentField.toNat = 0
  · have hsignificand : ((0 + x.mantissaField.toNat : Nat) : ℚ) < 2 ^ f.m := by exact_mod_cast (by omega)
    have hexponent : (x.exponentField.toNat : Int) - bias f + 1 = max 1 (x.exponentField.toNat : Int) - bias f := by
      omega
    rw [if_pos hfield, hexponent, two_zpow_eq f.m (max 1 (x.exponentField.toNat : Int) - bias f)]
    exact mul_lt_mul_of_pos_right hsignificand (by positivity)
  · have hsignificand : ((2 ^ f.m + x.mantissaField.toNat : Nat) : ℚ) < 2 ^ (f.m + 1) := by
      exact_mod_cast (by rw [pow_succ]; omega)
    rw [if_neg hfield, max_eq_right (by omega), two_zpow_succ_eq f.m]
    exact mul_lt_mul_of_pos_right hsignificand (by positivity)

/-- From which power of two on a magnitude with the implicit bit lies (30_encoding.md R52). -/
theorem two_zpow_le_magnitude (hfield : 1 ≤ x.exponentField.toNat) :
    2 ^ ((x.exponentField.toNat : Int) - (bias f : Int)) ≤ magnitude f x := by
  have hsignificand : (2 : ℚ) ^ f.m ≤ ((2 ^ f.m + x.mantissaField.toNat : Nat) : ℚ) := by
    exact_mod_cast Nat.le_add_right _ _
  rw [magnitude, exponentValue_eq_max, mantissaValue_toNat, if_neg (by omega), max_eq_right (by omega),
    two_zpow_eq f.m ((x.exponentField.toNat : Int) - bias f)]
  exact mul_le_mul_of_nonneg_right hsignificand (by positivity)

/-- A larger exponent field means a larger magnitude, whatever the mantissa fields are. -/
theorem magnitude_lt_of_exponentField_lt (h : x.exponentField.toNat < y.exponentField.toNat) :
    magnitude f x < magnitude f y :=
  calc magnitude f x < 2 ^ ((x.exponentField.toNat : Int) - (bias f : Int) + 1) := magnitude_lt_two_zpow f x
    _ ≤ 2 ^ ((y.exponentField.toNat : Int) - (bias f : Int)) := zpow_le_zpow_right₀ one_le_two (by omega)
    _ ≤ magnitude f y := two_zpow_le_magnitude f y (by omega)

/-- Patterns with the same magnitude differ in their signs at most. -/
theorem fields_eq_of_magnitude_eq (h : magnitude f x = magnitude f y) :
    x.exponentField.toNat = y.exponentField.toNat ∧ x.mantissaField.toNat = y.mantissaField.toNat := by
  have hfield : x.exponentField.toNat = y.exponentField.toNat := by
    rcases lt_trichotomy x.exponentField.toNat y.exponentField.toNat with hlt | heq | hgt
    · exact absurd h (magnitude_lt_of_exponentField_lt f x y hlt).ne
    · exact heq
    · exact absurd h (magnitude_lt_of_exponentField_lt f y x hgt).ne'
  rw [magnitude, magnitude, exponentValue_eq_max, exponentValue_eq_max, hfield] at h
  have hsignificand : (mantissaValue f x).toNat = (mantissaValue f y).toNat := by
    exact_mod_cast mul_right_cancel₀ (by positivity) h
  rw [mantissaValue_toNat, mantissaValue_toNat, hfield] at hsignificand
  exact ⟨hfield, Nat.add_left_cancel hsignificand⟩

/-- The value that stands for Infinity is the one its pattern would denote (42_subnormal_rounder.md R113). -/
theorem targetOf_eq_magnitude (hvalid : f.valid = true) : targetOf f x = magnitude f x := by
  rw [targetOf]
  split_ifs with hinf
  · obtain ⟨-, hones, hmantissa⟩ := (classify_eq_infinity f x).mp hinf
    rw [exponentField_eq_ones] at hones
    rw [mantissaField_eq_zero] at hmantissa
    have hcount := two_pow_e_eq f hvalid
    have hsignificand : (mantissaValue f x).toNat = 2 ^ f.m := by
      rw [mantissaValue_toNat, if_neg (by omega), hmantissa, Nat.add_zero]
    have hexponent : exponentValue f x = (bias f : Int) + 1 := by
      rw [exponentValue_eq_max]
      omega
    rw [magnitude, hsignificand, hexponent, Nat.cast_pow, Nat.cast_ofNat, ← two_zpow_eq, infinityMagnitude]
  · rfl

/-- A pattern that is the correct rounding of a finite operand's magnitude has the fields of that operand. -/
theorem fields_eq_of_correctlyRounded (hvalid : f.valid = true) (hx : isFinite (classify f x) = true)
    (h : CorrectlyRounded f (magnitude f x) y) :
    y.exponentField.toNat = x.exponentField.toNat ∧ y.mantissaField.toNat = x.mantissaField.toNat := by
  obtain ⟨-, -, hnearest⟩ := h
  obtain ⟨hle, -⟩ := hnearest _ (.inl (representable_magnitude f x hvalid hx))
  rw [sub_self, abs_zero, abs_nonpos_iff, sub_eq_zero, targetOf_eq_magnitude f y hvalid] at hle
  exact fields_eq_of_magnitude_eq f y x hle

end magnitude

/-! ### Multiplying by +1.0 -/

/-- Multiplying a finite operand by +1.0 is exact (R129): the exact product is the operand's own magnitude, and no other
pattern of its sign is the rounding of that. -/
theorem multiply_one_of_isFinite (f : FloatFormat) (v : BitVec f.width) (hvalid : f.valid = true)
    (hv : isFinite (classify f (extract f v)) = true) : multiply f (assemble f (oneFields f)) v = v := by
  have hone : isFinite (classify f (oneFields f)) = true := by rw [classify_oneFields f hvalid]; rfl
  have hmultiply := multiplyIsCorrectlyRounded f (assemble f (oneFields f)) v hvalid
  rw [extract_assemble] at hmultiply
  obtain ⟨hsign, hrounded⟩ := hmultiply hone hv
  rw [exactMagnitude, magnitude_oneFields f hvalid, one_mul] at hrounded
  obtain ⟨hexponent, hmantissa⟩ := fields_eq_of_correctlyRounded f _ _ hvalid hv hrounded
  have hfields : extract f (multiply f (assemble f (oneFields f)) v) = extract f v :=
    extractedFields_eq (hsign.trans BitVec.zero_xor) hexponent hmantissa
  rw [← assemble_extract f (multiply f _ v), hfields, assemble_extract]

/-- Multiplying Infinity by +1.0 is exact: it keeps the sign (R125, R129). -/
theorem multiply_one_of_infinity (f : FloatFormat) (v : BitVec f.width) (hvalid : f.valid = true)
    (hv : classify f (extract f v) = .infinity) : multiply f (assemble f (oneFields f)) v = v := by
  obtain ⟨-, hones, hmantissa⟩ := (classify_eq_infinity f _).mp hv
  have hone := classify_oneFields f hvalid
  have hsign : (oneFields f).sign ^^^ (extract f v).sign = (extract f v).sign := BitVec.zero_xor
  have hresolve := resolve_of_infinity f (oneFields f) (extract f v) (by rw [hone]; rfl) (by rw [hv]; rfl)
    (by rw [hone]; decide) (by rw [hv]; decide) (.inr hv)
  rw [multiply, extract_assemble, hresolve, hsign, infinityOf, ← hones, ← hmantissa]
  exact assemble_extract f v

/-- The classes are the NaNs, Infinity and the finite ones. -/
theorem isFinite_of_not_special (c : Classification) (hnan : isNaN c = false) (hinf : c ≠ .infinity) :
    isFinite c = true := by
  cases c <;> simp_all [isNaN, isFinite, isFiniteNonzero]

/-! ### The statements -/

/-- Settles O33: branch 1 answers, and quieting keeps what is already quiet. -/
theorem naNFirstOperandIsQuieted : Obligations.NaNFirstOperandIsQuieted := by
  intro f a b hvalid ha
  have hresult : multiply f a b = quiet f (extract f a) := resolve_of_nan_first f _ _ ha
  rw [hresult]
  obtain ⟨hsign, hones, hbit, hkept⟩ := quiet_fields f (extract f a) hvalid
  refine ⟨hsign, hones, hbit, hkept, fun hquiet => ?_⟩
  rw [quiet_of_quietNaN f _ hvalid hquiet, assemble_extract]

/-- Settles O34: branch 2 answers, or branch 1 in both orders. -/
theorem naNSecondOperandIsQuieted : Obligations.NaNSecondOperandIsQuieted := by
  intro f a b hvalid hb
  refine ⟨fun ha => ?_, fun ha => ⟨resolve_of_nan_first f _ _ ha, resolve_of_nan_first f _ _ hb⟩⟩
  have hresult : multiply f a b = quiet f (extract f b) := resolve_of_nan_second f _ _ ha hb
  rw [hresult]
  exact quiet_fields f (extract f b) hvalid

/-- Settles O35: the exponent field of a NaN is all ones already, so only the quiet bit is left to set. -/
theorem quietSetsOneBit : Obligations.QuietSetsOneBit := by
  intro f v hvalid hnan
  have hclass := classify_quiet f (extract f v) hvalid
  refine ⟨quiet_of_isNaN f v hvalid hnan, hclass, ?_⟩
  rw [quiet_of_quietNaN f _ hvalid hclass, assemble_extract]

/-- Settles O36: branch 3 answers, with a constant that is the quieting of positive fields. -/
theorem zeroTimesInfinityIsTheCanonicalNaN : Obligations.ZeroTimesInfinityIsTheCanonicalNaN := by
  refine ⟨fun f a b hvalid hinvalid => ?_, by decide, by decide, by decide⟩
  have hresult : multiply f a b = canonicalQNaN f := resolve_of_zero_infinity f _ _ hinvalid
  rw [hresult]
  refine ⟨canonicalQNaN_toNat f hvalid, ?_⟩
  rw [canonicalQNaN_eq_quiet]
  obtain ⟨hsign, -⟩ := quiet_fields f ⟨0, onesField f, 0⟩ hvalid
  exact ⟨hsign, classify_quiet f _ hvalid⟩

/-- Settles O37: branch 4 answers. -/
theorem infinityOperandGivesInfinity : Obligations.InfinityOperandGivesInfinity := by
  intro f a b _ ha hb ha0 hb0 hinf
  have hresult : multiply f a b = infinityOf f _ := resolve_of_infinity f _ _ ha hb ha0 hb0 hinf
  rw [hresult, extract_infinityOf]
  exact ⟨rfl, rfl, rfl⟩

/-- Settles O38: branch 5 answers. -/
theorem zeroOperandGivesZero : Obligations.ZeroOperandGivesZero := by
  intro f a b _ ha hb hzero
  have hresult : multiply f a b = zeroOf f _ := resolve_of_zero f _ _ ha hb hzero
  rw [hresult, extract_zeroOf]
  exact ⟨rfl, rfl, rfl⟩

/-- Settles O39: a table entry says which classes the operands have, and these select the branch. -/
theorem decisionFollowsTheTable : Obligations.DecisionFollowsTheTable := by
  intro f a b x y
  rw [multiply]
  rcases decisionBranch_cases (classify f x) (classify f y) with
    ⟨hn, hx⟩ | ⟨hn, hx, hy⟩ | ⟨hn, hinvalid⟩ | ⟨hn, hx, hy, hx0, hy0, hinf⟩ | ⟨hn, hx, hy, hzero⟩ | ⟨hn, hx, hy⟩
  · simpa [hn] using resolve_of_nan_first f x y hx
  · simpa [hn] using resolve_of_nan_second f x y hx hy
  · simpa [hn] using resolve_of_zero_infinity f x y hinvalid
  · simpa [hn] using resolve_of_infinity f x y hx hy hx0 hy0 hinf
  · simpa [hn] using resolve_of_zero f x y hx hy hzero
  · simpa [hn] using resolve_of_finiteNonzero f x y hx hy

/-- Settles O40: each branch treats its operands alike but for the two NaN branches, which answer each other's operand. -/
theorem commutesUnlessBothAreNaN : Obligations.CommutesUnlessBothAreNaN := by
  intro f a b hboth
  rw [multiply, multiply]
  have hsign : (extract f a).sign ^^^ (extract f b).sign = (extract f b).sign ^^^ (extract f a).sign :=
    BitVec.xor_comm _ _
  rcases decisionBranch_cases (classify f (extract f a)) (classify f (extract f b)) with
    ⟨-, ha⟩ | ⟨-, ha, hb⟩ | ⟨-, hinvalid⟩ | ⟨-, ha, hb, ha0, hb0, hinf⟩ | ⟨-, ha, hb, hzero⟩ | ⟨-, ha, hb⟩
  · have hb : isNaN (classify f (extract f b)) = false := Bool.eq_false_iff.mpr fun hb => hboth ⟨ha, hb⟩
    rw [resolve_of_nan_first f _ _ ha, resolve_of_nan_second f _ _ hb ha]
  · rw [resolve_of_nan_second f _ _ ha hb, resolve_of_nan_first f _ _ hb]
  · rw [resolve_of_zero_infinity f _ _ hinvalid, resolve_of_zero_infinity f _ _ hinvalid.symm]
  · rw [resolve_of_infinity f _ _ ha hb ha0 hb0 hinf, resolve_of_infinity f _ _ hb ha hb0 ha0 hinf.symm, hsign]
  · rw [resolve_of_zero f _ _ ha hb hzero, resolve_of_zero f _ _ hb ha hzero.symm, hsign]
  · rw [resolve_of_finiteNonzero f _ _ ha hb, resolve_of_finiteNonzero f _ _ hb ha, finitePath_comm]

/-- Settles O41: bit w-1 is the sign, and one of the last three branches answers. -/
theorem resultSignIsTheXor : Obligations.ResultSignIsTheXor := by
  intro f a b hvalid ha hb hzeroInf hinfZero
  have htop : f.width - 1 = f.e + f.m := by simp only [FloatFormat.width]; omega
  obtain ⟨-, hsign⟩ := resolve_not_nan f _ _ hvalid ha hb (not_or.mpr ⟨hzeroInf, hinfZero⟩)
  rw [htop, ← extract_sign_bit, ← extract_sign_bit, ← extract_sign_bit, multiply, hsign, BitVec.getLsbD_xor]

/-- Settles O42: the first three branches answer a QuietNaN, the others no NaN. -/
theorem naNResultsAreQuietAndExplained : Obligations.NaNResultsAreQuietAndExplained := by
  intro f a b hvalid
  rw [multiply]
  by_cases h : isNaN (classify f (extract f a)) = true ∨ isNaN (classify f (extract f b)) = true ∨
      ZeroTimesInfinity (classify f (extract f a)) (classify f (extract f b))
  · rw [classify_resolve_nan f _ _ hvalid h]
    exact ⟨by decide, iff_of_true rfl h⟩
  · obtain ⟨ha, hrest⟩ := not_or.mp h
    obtain ⟨hb, hpair⟩ := not_or.mp hrest
    obtain ⟨hclass, -⟩ :=
      resolve_not_nan f _ _ hvalid (Bool.eq_false_iff.mpr ha) (Bool.eq_false_iff.mpr hb) hpair
    refine ⟨fun hsignaling => ?_, iff_of_false (by rw [hclass]; decide) h⟩
    rw [hsignaling] at hclass
    cases hclass

/-- Settles O43: an operand is a NaN, Infinity or finite; branch 2, branch 4 and correct rounding answer. -/
theorem multiplyingByOneIsExact : Obligations.MultiplyingByOneIsExact := by
  intro f v hvalid
  refine ⟨fun hnan => ?_, fun hnan => ?_⟩
  · by_cases hinf : classify f (extract f v) = .infinity
    · exact multiply_one_of_infinity f v hvalid hinf
    · exact multiply_one_of_isFinite f v hvalid (isFinite_of_not_special _ hnan hinf)
  · have hone : isNaN (classify f (oneFields f)) = false := by rw [classify_oneFields f hvalid]; rfl
    rw [← extract_assemble f (oneFields f)] at hone
    exact resolve_of_nan_second f _ _ hone hnan

end Sys2Proof.Machine

/-! The four operations (43_result_assembler.md R131 to R134): each completes from every state, and the parameters of the
named formats. -/

namespace Sys2Proof.Machine

/-- An evaluation leaves the words of its operands on the inputs and their product on the output (10_state.md R23). -/
theorem evaluate_eq (i : BlockInstance) (a b : ExtractedFields i.fmt) :
    evaluate i a b = ⟨i, assemble i.fmt a, assemble i.fmt b, multiply i.fmt (assemble i.fmt a) (assemble i.fmt b)⟩ := by
  simp [evaluate, multiply]

/-- FPMUL.G(m,e) of a supported pair is one evaluation on the instance made for the pair (R134). -/
theorem exec_fpmulG_of_supported (fmt : FloatFormat) (a b : ExtractedFields fmt) (s : State)
    (hsupported : Config.supported fmt = true) : exec (.fpmulG fmt a b) s = .next (evaluate (.generic fmt) a b) := by
  rw [exec, execFpmulG, if_pos hsupported]

/-- The three parts of the Rounder's input as slices of it (42_subnormal_rounder.md R104). -/
theorem rounderInput_slices (f : FloatFormat) (p : BitVec f.prodWidth) :
    (window f p).toNat = p.toNat / 2 ^ (f.m + 1) % 2 ^ (f.m + 1) ∧ roundBit f p = p.getLsbD f.m ∧
    (stickyBits f p).toNat = p.toNat % 2 ^ f.m := by
  have hfits : p.toNat / 2 ^ (f.m + 1) < 2 ^ (f.m + 1) := window_toNat f p ▸ (window f p).isLt
  exact ⟨by rw [window_toNat, Nat.mod_eq_of_lt hfits], rfl, stickyBits_toNat f p⟩

/-- Settles O44: one evaluation on the half instance; the words and the example are computed. -/
theorem halfMultiplyCompletes : Obligations.HalfMultiplyCompletes := by
  obtain ⟨hwidth, hbias, -, hemin, -, hprod⟩ := derivedParameters_half
  exact ⟨fun a b _ => congrArg Host.Outcome.next (evaluate_eq .half a b), ⟨rfl, hwidth, hbias, hemin, hprod⟩,
    rounderInput_slices .half, by decide, fun v hnan => quiet_of_isNaN .half v rfl hnan, by decide⟩

/-- Settles O45: one evaluation on the single instance; the words and the example are computed. -/
theorem singleMultiplyCompletes : Obligations.SingleMultiplyCompletes := by
  obtain ⟨hwidth, hbias, -, hemin, -, hprod⟩ := derivedParameters_single
  exact ⟨fun a b _ => congrArg Host.Outcome.next (evaluate_eq .single a b), ⟨rfl, hwidth, hbias, hemin, hprod⟩,
    rounderInput_slices .single, by decide, fun v hnan => quiet_of_isNaN .single v rfl hnan, by decide⟩

/-- Settles O46: one evaluation on the double instance; the words and the example are computed. -/
theorem doubleMultiplyCompletes : Obligations.DoubleMultiplyCompletes := by
  obtain ⟨hwidth, hbias, -, hemin, -, hprod⟩ := derivedParameters_double
  exact ⟨fun a b _ => congrArg Host.Outcome.next (evaluate_eq .double a b), ⟨rfl, hwidth, hbias, hemin, hprod⟩,
    rounderInput_slices .double, by decide, fun v hnan => quiet_of_isNaN .double v rfl hnan, by decide⟩

/-- Settles O47: one evaluation on the generic instance, and at a named pair it drives the words the named operation
drives. -/
theorem genericMultiplyCompletes : Obligations.GenericMultiplyCompletes :=
  ⟨fun fmt a b s h => (exec_fpmulG_of_supported fmt a b s h).trans (congrArg _ (evaluate_eq (.generic fmt) a b)),
    fun a b s => ⟨_, _, _, rfl, exec_fpmulG_of_supported .half a b s rfl⟩,
    fun a b s => ⟨_, _, _, rfl, exec_fpmulG_of_supported .single a b s rfl⟩,
    fun a b s => ⟨_, _, _, rfl, exec_fpmulG_of_supported .double a b s rfl⟩⟩

end Sys2Proof.Machine

/-! What is refused (60_exceptions.md R140, R146): the decoder's rejections by name, the operations and steps of an
instance that does not exist, and making an instance. -/

namespace Sys2Proof

/-- A supported instance given other than two words answers their number (20_memory.md R43). -/
theorem decode_wrongCount (i : BlockInstance) (words : List PortWord) (hsup : i.supported = true)
    (hcount : words.length ≠ 2) : decode i words = .error (.operandCount words.length) := by
  match words with
  | [] => exact if_pos hsup
  | [_] => exact if_pos hsup
  | [_, _] => exact absurd rfl hcount
  | _ :: _ :: _ :: _ => exact if_pos hsup

/-- A supported instance given two words not both of its width answers the widths (93_implementation_defined.md I6). -/
theorem decode_wrongWidth (i : BlockInstance) (x y : PortWord) (hsup : i.supported = true)
    (hwidth : ¬(x.width = i.width ∧ y.width = i.width)) :
    decode i [x, y] = .error (.operandWidth i.width x.width y.width) :=
  (if_pos hsup).trans (dif_neg hwidth)

/-- Settles O7: the decoder checks the instance, then the number of words, then their widths. -/
theorem decoderRejectsByName : Obligations.DecoderRejectsByName := by
  intro i words
  refine ⟨decode_unsupported i words, decode_wrongCount i words, ?_⟩
  rintro x y hsup rfl hwidth
  exact decode_wrongWidth i x y hsup hwidth

end Sys2Proof

namespace Sys2Proof.Machine

/-- An instance is made of a valid pair of the supported set (60_exceptions.md R146). -/
theorem configure_of_supported (supportedSet : FloatFormat → Bool) (f : FloatFormat) (hvalid : f.valid = true)
    (hset : supportedSet f = true) : configure supportedSet f = .ok (freshInstance (instanceFor f)) := by
  rcases configure_cases supportedSet f with ⟨-, -, hmade⟩ | ⟨hnot, -⟩
  · exact hmade
  · exact absurd ⟨hvalid, hset⟩ hnot

/-- No instance is made of any other pair (60_exceptions.md R146). -/
theorem configure_of_unsupported (supportedSet : FloatFormat → Bool) (f : FloatFormat)
    (hnot : ¬(f.valid = true ∧ supportedSet f = true)) :
    configure supportedSet f = .error (.invalidFormat f.m f.e) := by
  rcases configure_cases supportedSet f with ⟨hvalid, hset, -⟩ | ⟨-, hrefused⟩
  · exact absurd ⟨hvalid, hset⟩ hnot
  · exact hrefused

/-- Settles O48: an operation answers one evaluation or InvalidFormat, as it is well formed or not. -/
theorem onlyUnsupportedFormatsAreRefused : Obligations.OnlyUnsupportedFormatsAreRefused := by
  intro i s
  rcases exec_cases i s with ⟨hwf, a, b, hnext⟩ | ⟨hwf, hrefused⟩
  · exact ⟨fun _ => ⟨evaluate i.inst a b, hnext⟩, fun hnot => by simp [hwf] at hnot⟩
  · exact ⟨fun hyes => by simp [hwf] at hyes, fun _ => hrefused⟩

/-- Settles O57: there is no fault to answer, and the instance alone decides between going on and InvalidFormat. -/
theorem stepNeverFaults : Obligations.StepNeverFaults := by
  intro s
  refine ⟨nofun, ⟨?_, fun hsup => ⟨_, step_of_supported s hsup⟩⟩, fun r hrefused => ?_⟩
  · rintro ⟨t, hnext⟩
    obtain ⟨hsup, -⟩ := step_eq_next s t hnext
    exact hsup
  · rcases step_cases s with ⟨-, hnext⟩ | ⟨hunsup, hanswer⟩
    · rw [hnext] at hrefused
      cases hrefused
    · rw [hanswer] at hrefused
      exact ⟨(Host.Outcome.refused.inj hrefused).symm, hunsup⟩

/-- Settles O60: the instance made is a fresh one of the pair, and the three named pairs are valid. -/
theorem configureMakesSupportedInstances : Obligations.ConfigureMakesSupportedInstances := by
  intro supportedSet f
  refine ⟨fun hvalid hset => ?_, configure_of_unsupported supportedSet f, fun hhalf hsingle hdouble hnamed => ?_⟩
  · exact ⟨freshInstance (instanceFor f), configure_of_supported supportedSet f hvalid hset, instanceFor_fmt f,
      present_settled _ _ _⟩
  · rcases hnamed with rfl | rfl | rfl
    · exact ⟨_, configure_of_supported supportedSet .half rfl hhalf⟩
    · exact ⟨_, configure_of_supported supportedSet .single rfl hsingle⟩
    · exact ⟨_, configure_of_supported supportedSet .double rfl hdouble⟩

end Sys2Proof.Machine

/-! Power-up (70_reset_and_hazards.md R155): the state after it is a half instance just made. -/

namespace Sys2Proof.Machine

/-- After power-up the block is a half instance just made (70_reset_and_hazards.md R155; log entry 3). -/
theorem reset_eq_freshInstance : State.reset = freshInstance .half := rfl

/-- An instance just made meets the invariant: its output is settled on its inputs at once (10_state.md R29). -/
theorem freshInstance_inv (i : BlockInstance) (hsup : i.supported = true) : (freshInstance i).inv :=
  ⟨hsup, present_settled i 0 0⟩

/-- Settles O59: the half pair is supported, so the instance just made of it is settled and its step goes on. -/
theorem resetMeetsTheInvariant : Obligations.ResetMeetsTheInvariant := by
  have hsup : BlockInstance.half.supported = true := by decide
  rw [Obligations.ResetMeetsTheInvariant, reset_eq_freshInstance]
  exact ⟨freshInstance_inv .half hsup, _, step_of_supported (freshInstance .half) hsup⟩

end Sys2Proof.Machine
